-- ==== Sys2Proof/Word.lean ====
section
/-! DEFINITION. The two word types of the machine (spec/00_scope.md R4, R5): 8-bit data and 16-bit addresses. -/

namespace Sys2Proof

/-- A byte: A, X, Y, SP, a memory cell, an operand byte (R4). All values are unsigned (R5). -/
abbrev Byte := BitVec 8

/-- A 16-bit quantity: PC, a two-byte operand, a pointer, PRINT_ADDR (R4). -/
abbrev Word := BitVec 16

end Sys2Proof
end

