-- ==== Sys2Proof/Syntax.lean ====
section
/-! DEFINITION. The instruction set as syntax: mnemonics, addressing-mode tags, operand forms, and `Instr`, one constructor
per row of spec/opcode_table.json (spec/30_encoding.md R50 to R56). Operand bytes have no illegal values (R54), so an operand
is a byte `d` (format OP_D8) or a 16-bit little-endian value `w` (format OP_D16). -/

namespace Sys2Proof

/-- The 21 mnemonics (R53), a closed list. -/
inductive Mnemonic where
  | lda | ldx | ldy | tax | txa | tay | tya | sta | clc | adc | cmp | cpx | cpy | beq | inx | dex | iny | dey | jmp | jsr | brk
deriving DecidableEq, Repr

/-- The 13 addressing-mode tags (R52). No opcode carries `acc` (R56). -/
inductive Mode where
  | imp | acc | imm | abs | abx | aby | zp | zpx | zpy | rel | ind | izx | izy
deriving DecidableEq, Repr

/-- The operand-byte count `n` of a tag (R52). -/
def Mode.operandBytes : Mode → Nat
  | .imp | .acc => 0
  | .imm | .zp | .zpx | .zpy | .rel | .izx | .izy => 1
  | .abs | .abx | .aby | .ind => 2

/-- The operand of one of the ten memory modes (R76 to R85), with its `data`. -/
inductive MemForm where
  /-- Absolute (R76). -/
  | abs (w : Word)
  /-- Absolute,X (R77). -/
  | abx (w : Word)
  /-- Absolute,Y (R78). -/
  | aby (w : Word)
  /-- Zero-page (R79). -/
  | zp (d : Byte)
  /-- Zero-page,X (R80). -/
  | zpx (d : Byte)
  /-- Zero-page,Y (R81). -/
  | zpy (d : Byte)
  /-- Relative (R82). -/
  | rel (d : Byte)
  /-- Indirect (R83). -/
  | ind (w : Word)
  /-- (Indirect,X) (R84). -/
  | izx (d : Byte)
  /-- (Indirect),Y (R85). -/
  | izy (d : Byte)
deriving DecidableEq, Repr

/-- The operand of an instruction: one of the 13 modes with its `data` (R52, R73 to R85). -/
inductive OperandForm where
  /-- Implied (R73). -/
  | imp
  /-- Accumulator (R74); no instruction of this hardware has it (R56). -/
  | acc
  /-- Immediate (R75). -/
  | imm (d : Byte)
  /-- A memory mode (R76 to R85). -/
  | mem (m : MemForm)
deriving DecidableEq, Repr

/-- The tag of a memory form. -/
def MemForm.mode : MemForm → Mode
  | .abs _ => .abs | .abx _ => .abx | .aby _ => .aby | .zp _ => .zp | .zpx _ => .zpx | .zpy _ => .zpy
  | .rel _ => .rel | .ind _ => .ind | .izx _ => .izx | .izy _ => .izy

/-- The tag of an operand. -/
def OperandForm.mode : OperandForm → Mode
  | .imp => .imp | .acc => .acc | .imm _ => .imm | .mem m => m.mode

/-- `data` as an unsigned number (R51); 0 stands for "absent" in the modes without operand bytes. -/
def MemForm.data : MemForm → Nat
  | .abs w | .abx w | .aby w | .ind w => w.toNat
  | .zp d | .zpx d | .zpy d | .rel d | .izx d | .izy d => d.toNat

/-- `data` as an unsigned number (R51); 0 stands for "absent" in the modes without operand bytes. -/
def OperandForm.data : OperandForm → Nat
  | .imp | .acc => 0 | .imm d => d.toNat | .mem m => m.data

/-- The instructions: one constructor per row of the opcode table (R53), in the order of R53's table by mnemonic. -/
inductive Instr where
  -- LDA, load accumulator (R100)
  /-- `LDA #d` -/
  | ldaImm (d : Byte)
  /-- `LDA d` -/
  | ldaZp (d : Byte)
  /-- `LDA d,X` -/
  | ldaZpx (d : Byte)
  /-- `LDA w` -/
  | ldaAbs (w : Word)
  /-- `LDA w,X` -/
  | ldaAbx (w : Word)
  /-- `LDA w,Y` -/
  | ldaAby (w : Word)
  /-- `LDA (d,X)` -/
  | ldaIzx (d : Byte)
  /-- `LDA (d),Y` -/
  | ldaIzy (d : Byte)
  -- LDX, load index X (R101)
  /-- `LDX #d` -/
  | ldxImm (d : Byte)
  /-- `LDX d` -/
  | ldxZp (d : Byte)
  /-- `LDX d,Y` -/
  | ldxZpy (d : Byte)
  /-- `LDX w` -/
  | ldxAbs (w : Word)
  /-- `LDX w,Y` -/
  | ldxAby (w : Word)
  -- LDY, load index Y (R102)
  /-- `LDY #d` -/
  | ldyImm (d : Byte)
  /-- `LDY d` -/
  | ldyZp (d : Byte)
  /-- `LDY d,X` -/
  | ldyZpx (d : Byte)
  /-- `LDY w` -/
  | ldyAbs (w : Word)
  /-- `LDY w,X` -/
  | ldyAbx (w : Word)
  -- TAX, transfer A to X (R103)
  /-- `TAX` -/
  | tax
  -- TXA, transfer X to A (R104)
  /-- `TXA` -/
  | txa
  -- TAY, transfer A to Y (R105)
  /-- `TAY` -/
  | tay
  -- TYA, transfer Y to A (R106)
  /-- `TYA` -/
  | tya
  -- STA, store accumulator (R107)
  /-- `STA d` -/
  | staZp (d : Byte)
  /-- `STA d,X` -/
  | staZpx (d : Byte)
  /-- `STA w` -/
  | staAbs (w : Word)
  /-- `STA w,X` -/
  | staAbx (w : Word)
  /-- `STA w,Y` -/
  | staAby (w : Word)
  /-- `STA (d,X)` -/
  | staIzx (d : Byte)
  /-- `STA (d),Y` -/
  | staIzy (d : Byte)
  -- CLC, clear carry (R110)
  /-- `CLC` -/
  | clc
  -- ADC, add to accumulator without carry (R111)
  /-- `ADC #d` -/
  | adcImm (d : Byte)
  /-- `ADC d` -/
  | adcZp (d : Byte)
  /-- `ADC d,X` -/
  | adcZpx (d : Byte)
  /-- `ADC w` -/
  | adcAbs (w : Word)
  /-- `ADC w,X` -/
  | adcAbx (w : Word)
  /-- `ADC w,Y` -/
  | adcAby (w : Word)
  /-- `ADC (d,X)` -/
  | adcIzx (d : Byte)
  /-- `ADC (d),Y` -/
  | adcIzy (d : Byte)
  -- CMP, compare accumulator (R113)
  /-- `CMP #d` -/
  | cmpImm (d : Byte)
  /-- `CMP d` -/
  | cmpZp (d : Byte)
  /-- `CMP d,X` -/
  | cmpZpx (d : Byte)
  /-- `CMP w` -/
  | cmpAbs (w : Word)
  /-- `CMP w,X` -/
  | cmpAbx (w : Word)
  /-- `CMP w,Y` -/
  | cmpAby (w : Word)
  /-- `CMP (d,X)` -/
  | cmpIzx (d : Byte)
  /-- `CMP (d),Y` -/
  | cmpIzy (d : Byte)
  -- CPX, compare index X (R114)
  /-- `CPX #d` -/
  | cpxImm (d : Byte)
  /-- `CPX d` -/
  | cpxZp (d : Byte)
  /-- `CPX w` -/
  | cpxAbs (w : Word)
  -- CPY, compare index Y (R115)
  /-- `CPY #d` -/
  | cpyImm (d : Byte)
  /-- `CPY d` -/
  | cpyZp (d : Byte)
  /-- `CPY w` -/
  | cpyAbs (w : Word)
  -- BEQ, branch if Zero (R120)
  /-- `BEQ d` -/
  | beqRel (d : Byte)
  -- INX, increment X (R125)
  /-- `INX` -/
  | inx
  -- DEX, decrement X (R126)
  /-- `DEX` -/
  | dex
  -- INY, increment Y (R127)
  /-- `INY` -/
  | iny
  -- DEY, decrement Y (R128)
  /-- `DEY` -/
  | dey
  -- JMP, jump (R130)
  /-- `JMP w` -/
  | jmpAbs (w : Word)
  /-- `JMP (w)` -/
  | jmpInd (w : Word)
  -- JSR, system call to the print address (R131)
  /-- `JSR w` -/
  | jsrAbs (w : Word)
  -- BRK, halt (R132)
  /-- `BRK` -/
  | brk
deriving DecidableEq, Repr

/-- The mnemonic of an instruction (R53). -/
def Instr.mnemonic : Instr → Mnemonic
  | .ldaImm _ | .ldaZp _ | .ldaZpx _ | .ldaAbs _ | .ldaAbx _ | .ldaAby _ | .ldaIzx _ | .ldaIzy _ => .lda
  | .ldxImm _ | .ldxZp _ | .ldxZpy _ | .ldxAbs _ | .ldxAby _ => .ldx
  | .ldyImm _ | .ldyZp _ | .ldyZpx _ | .ldyAbs _ | .ldyAbx _ => .ldy
  | .tax => .tax
  | .txa => .txa
  | .tay => .tay
  | .tya => .tya
  | .staZp _ | .staZpx _ | .staAbs _ | .staAbx _ | .staAby _ | .staIzx _ | .staIzy _ => .sta
  | .clc => .clc
  | .adcImm _ | .adcZp _ | .adcZpx _ | .adcAbs _ | .adcAbx _ | .adcAby _ | .adcIzx _ | .adcIzy _ => .adc
  | .cmpImm _ | .cmpZp _ | .cmpZpx _ | .cmpAbs _ | .cmpAbx _ | .cmpAby _ | .cmpIzx _ | .cmpIzy _ => .cmp
  | .cpxImm _ | .cpxZp _ | .cpxAbs _ => .cpx
  | .cpyImm _ | .cpyZp _ | .cpyAbs _ => .cpy
  | .beqRel _ => .beq
  | .inx => .inx
  | .dex => .dex
  | .iny => .iny
  | .dey => .dey
  | .jmpAbs _ | .jmpInd _ => .jmp
  | .jsrAbs _ => .jsr
  | .brk => .brk

/-- The operand of an instruction, with its mode (R53). -/
def Instr.form : Instr → OperandForm
  | .ldaImm d => .imm d
  | .ldaZp d => .mem (.zp d)
  | .ldaZpx d => .mem (.zpx d)
  | .ldaAbs w => .mem (.abs w)
  | .ldaAbx w => .mem (.abx w)
  | .ldaAby w => .mem (.aby w)
  | .ldaIzx d => .mem (.izx d)
  | .ldaIzy d => .mem (.izy d)
  | .ldxImm d => .imm d
  | .ldxZp d => .mem (.zp d)
  | .ldxZpy d => .mem (.zpy d)
  | .ldxAbs w => .mem (.abs w)
  | .ldxAby w => .mem (.aby w)
  | .ldyImm d => .imm d
  | .ldyZp d => .mem (.zp d)
  | .ldyZpx d => .mem (.zpx d)
  | .ldyAbs w => .mem (.abs w)
  | .ldyAbx w => .mem (.abx w)
  | .tax => .imp
  | .txa => .imp
  | .tay => .imp
  | .tya => .imp
  | .staZp d => .mem (.zp d)
  | .staZpx d => .mem (.zpx d)
  | .staAbs w => .mem (.abs w)
  | .staAbx w => .mem (.abx w)
  | .staAby w => .mem (.aby w)
  | .staIzx d => .mem (.izx d)
  | .staIzy d => .mem (.izy d)
  | .clc => .imp
  | .adcImm d => .imm d
  | .adcZp d => .mem (.zp d)
  | .adcZpx d => .mem (.zpx d)
  | .adcAbs w => .mem (.abs w)
  | .adcAbx w => .mem (.abx w)
  | .adcAby w => .mem (.aby w)
  | .adcIzx d => .mem (.izx d)
  | .adcIzy d => .mem (.izy d)
  | .cmpImm d => .imm d
  | .cmpZp d => .mem (.zp d)
  | .cmpZpx d => .mem (.zpx d)
  | .cmpAbs w => .mem (.abs w)
  | .cmpAbx w => .mem (.abx w)
  | .cmpAby w => .mem (.aby w)
  | .cmpIzx d => .mem (.izx d)
  | .cmpIzy d => .mem (.izy d)
  | .cpxImm d => .imm d
  | .cpxZp d => .mem (.zp d)
  | .cpxAbs w => .mem (.abs w)
  | .cpyImm d => .imm d
  | .cpyZp d => .mem (.zp d)
  | .cpyAbs w => .mem (.abs w)
  | .beqRel d => .mem (.rel d)
  | .inx => .imp
  | .dex => .imp
  | .iny => .imp
  | .dey => .imp
  | .jmpAbs w => .mem (.abs w)
  | .jmpInd w => .mem (.ind w)
  | .jsrAbs w => .mem (.abs w)
  | .brk => .imp

/-- The addressing-mode tag of an instruction (R53). -/
def Instr.mode (i : Instr) : Mode := i.form.mode

/-- The operand-byte count `n` of an instruction (R52). -/
def Instr.operandBytes (i : Instr) : Nat := i.mode.operandBytes

end Sys2Proof
end

