-- ==== Sys2Proof/WellFormed.lean ====
section
/-! DEFINITION. When an instruction is well formed. A term of `Instr` cannot be ill formed in its operand: the operand is a
byte or a 16-bit value by type and every such value is legal (spec/30_encoding.md R54). What can be ill formed is an
instruction written down as mnemonic, mode and number, as an assembler's input is (R57): the pair may be absent from the
table, or the number may not fit. The checks are stated on that raw form, and an `Instr` is well formed when its raw form is. -/

namespace Sys2Proof

/-- An instruction as mnemonic, mode tag and `data`, before any check. -/
structure RawInstr where
  mnemonic : Mnemonic
  mode : Mode
  data : Nat
deriving DecidableEq, Repr

/-- The modes each mnemonic takes: R53's table by mnemonic, row by row. -/
def Mnemonic.modes : Mnemonic → List Mode
  | .lda | .adc | .cmp => [.imm, .zp, .zpx, .abs, .abx, .aby, .izx, .izy]
  | .ldx => [.imm, .zp, .zpy, .abs, .aby]
  | .ldy => [.imm, .zp, .zpx, .abs, .abx]
  | .tax | .txa | .tay | .tya | .clc | .inx | .dex | .iny | .dey | .brk => [.imp]
  | .sta => [.zp, .zpx, .abs, .abx, .aby, .izx, .izy]
  | .cpx | .cpy => [.imm, .zp, .abs]
  | .beq => [.rel]
  | .jmp => [.abs, .ind]
  | .jsr => [.abs]

/-- Check 1: the pair (mnemonic, mode) has a row in the opcode table (R53; D2: the set is closed). -/
def RawInstr.pairExists (r : RawInstr) : Bool := r.mnemonic.modes.contains r.mode

/-- Check 2: `data` fits the operand bytes of the mode (R51); without operand bytes there is no `data` (written 0). -/
def RawInstr.dataFits (r : RawInstr) : Bool := decide (r.data < 256 ^ r.mode.operandBytes)

/-- A raw instruction is well formed when both checks pass. -/
def RawInstr.wf (r : RawInstr) : Bool := r.pairExists && r.dataFits

/-- The raw form of an instruction. -/
def Instr.raw (i : Instr) : RawInstr := ⟨i.mnemonic, i.mode, i.form.data⟩

/-- An instruction is well formed when its raw form is. -/
def Instr.wf (i : Instr) : Bool := i.raw.wf

end Sys2Proof
end

