-- ==== Sys2Proof/Decode.lean ====
section
/-! DEFINITION. Decoding and encoding (spec/30_encoding.md R50 to R55). The opcode table is R53's list by opcode byte; the
encoder is written from R53's list by mnemonic, so that the two transcriptions check each other. The byte values are the
spec's own choice, from general knowledge (D1, D2; log 9). -/

namespace Sys2Proof

/-- A 16-bit quantity from two bytes, little-endian: `lo | (hi << 8)` (R51; spec/20_memory.md R32). -/
def joinBytes (lo hi : Byte) : Word := hi ++ lo

/-- The low byte of a 16-bit quantity, the one at the lower address (R32). -/
def lowByte (w : Word) : Byte := w.extractLsb' 0 8

/-- The high byte of a 16-bit quantity, the one at the higher address (R32). -/
def highByte (w : Word) : Byte := w.extractLsb' 8 8

/-- What a row builds from its operand bytes: the three formats OP, OP_D8, OP_D16 (R50). -/
inductive Build where
  /-- Format OP: no operand byte. -/
  | op (i : Instr)
  /-- Format OP_D8: one operand byte. -/
  | d8 (f : Byte → Instr)
  /-- Format OP_D16: two operand bytes, low first. -/
  | d16 (f : Word → Instr)

/-- A row of the opcode table: opcode byte, mnemonic, mode tag, and the instruction it builds (R53). -/
structure Row where
  opcode : Byte
  mnemonic : Mnemonic
  mode : Mode
  build : Build

/-- Opcode bytes 00 to 7F. -/
def opcodeTable00 : List Row :=
  [⟨0x00, .brk, .imp, .op .brk⟩,
   ⟨0x18, .clc, .imp, .op .clc⟩,
   ⟨0x20, .jsr, .abs, .d16 .jsrAbs⟩,
   ⟨0x4C, .jmp, .abs, .d16 .jmpAbs⟩,
   ⟨0x61, .adc, .izx, .d8 .adcIzx⟩,
   ⟨0x65, .adc, .zp, .d8 .adcZp⟩,
   ⟨0x69, .adc, .imm, .d8 .adcImm⟩,
   ⟨0x6C, .jmp, .ind, .d16 .jmpInd⟩,
   ⟨0x6D, .adc, .abs, .d16 .adcAbs⟩,
   ⟨0x71, .adc, .izy, .d8 .adcIzy⟩,
   ⟨0x75, .adc, .zpx, .d8 .adcZpx⟩,
   ⟨0x79, .adc, .aby, .d16 .adcAby⟩,
   ⟨0x7D, .adc, .abx, .d16 .adcAbx⟩]

/-- Opcode bytes 80 to 9F. -/
def opcodeTable80 : List Row :=
  [⟨0x81, .sta, .izx, .d8 .staIzx⟩,
   ⟨0x85, .sta, .zp, .d8 .staZp⟩,
   ⟨0x88, .dey, .imp, .op .dey⟩,
   ⟨0x8A, .txa, .imp, .op .txa⟩,
   ⟨0x8D, .sta, .abs, .d16 .staAbs⟩,
   ⟨0x91, .sta, .izy, .d8 .staIzy⟩,
   ⟨0x95, .sta, .zpx, .d8 .staZpx⟩,
   ⟨0x98, .tya, .imp, .op .tya⟩,
   ⟨0x99, .sta, .aby, .d16 .staAby⟩,
   ⟨0x9D, .sta, .abx, .d16 .staAbx⟩]

/-- Opcode bytes A0 to BF. -/
def opcodeTableA0 : List Row :=
  [⟨0xA0, .ldy, .imm, .d8 .ldyImm⟩,
   ⟨0xA1, .lda, .izx, .d8 .ldaIzx⟩,
   ⟨0xA2, .ldx, .imm, .d8 .ldxImm⟩,
   ⟨0xA4, .ldy, .zp, .d8 .ldyZp⟩,
   ⟨0xA5, .lda, .zp, .d8 .ldaZp⟩,
   ⟨0xA6, .ldx, .zp, .d8 .ldxZp⟩,
   ⟨0xA8, .tay, .imp, .op .tay⟩,
   ⟨0xA9, .lda, .imm, .d8 .ldaImm⟩,
   ⟨0xAA, .tax, .imp, .op .tax⟩,
   ⟨0xAC, .ldy, .abs, .d16 .ldyAbs⟩,
   ⟨0xAD, .lda, .abs, .d16 .ldaAbs⟩,
   ⟨0xAE, .ldx, .abs, .d16 .ldxAbs⟩,
   ⟨0xB1, .lda, .izy, .d8 .ldaIzy⟩,
   ⟨0xB4, .ldy, .zpx, .d8 .ldyZpx⟩,
   ⟨0xB5, .lda, .zpx, .d8 .ldaZpx⟩,
   ⟨0xB6, .ldx, .zpy, .d8 .ldxZpy⟩,
   ⟨0xB9, .lda, .aby, .d16 .ldaAby⟩,
   ⟨0xBC, .ldy, .abx, .d16 .ldyAbx⟩,
   ⟨0xBD, .lda, .abx, .d16 .ldaAbx⟩,
   ⟨0xBE, .ldx, .aby, .d16 .ldxAby⟩]

/-- Opcode bytes C0 to FF. -/
def opcodeTableC0 : List Row :=
  [⟨0xC0, .cpy, .imm, .d8 .cpyImm⟩,
   ⟨0xC1, .cmp, .izx, .d8 .cmpIzx⟩,
   ⟨0xC4, .cpy, .zp, .d8 .cpyZp⟩,
   ⟨0xC5, .cmp, .zp, .d8 .cmpZp⟩,
   ⟨0xC8, .iny, .imp, .op .iny⟩,
   ⟨0xC9, .cmp, .imm, .d8 .cmpImm⟩,
   ⟨0xCA, .dex, .imp, .op .dex⟩,
   ⟨0xCC, .cpy, .abs, .d16 .cpyAbs⟩,
   ⟨0xCD, .cmp, .abs, .d16 .cmpAbs⟩,
   ⟨0xD1, .cmp, .izy, .d8 .cmpIzy⟩,
   ⟨0xD5, .cmp, .zpx, .d8 .cmpZpx⟩,
   ⟨0xD9, .cmp, .aby, .d16 .cmpAby⟩,
   ⟨0xDD, .cmp, .abx, .d16 .cmpAbx⟩,
   ⟨0xE0, .cpx, .imm, .d8 .cpxImm⟩,
   ⟨0xE4, .cpx, .zp, .d8 .cpxZp⟩,
   ⟨0xE8, .inx, .imp, .op .inx⟩,
   ⟨0xEC, .cpx, .abs, .d16 .cpxAbs⟩,
   ⟨0xF0, .beq, .rel, .d8 .beqRel⟩]

/-- OPCODE_TABLE: R53's 61 rows by opcode byte, ascending. -/
def opcodeTable : List Row := opcodeTable00 ++ opcodeTable80 ++ opcodeTableA0 ++ opcodeTableC0

/-- The row an opcode byte selects: all 8 bits select (R50). -/
def lookupRow (op : Byte) : Option Row := opcodeTable.find? fun r => r.opcode == op

/-- Why bytes are no instruction. -/
inductive DecodeError where
  /-- The first byte is not in the opcode table (R54). -/
  | unsupportedOpcode (op : Byte)
  /-- The list ends before the instruction does. The machine never meets this: it fetches as many bytes as the first byte
  asks for (log 24). -/
  | truncated
deriving DecidableEq, Repr

/-- Reads one instruction from the front of a list of bytes and returns the bytes after it (R50, R51). Total: other bytes
are rejected by name. -/
def decode : List Byte → Except DecodeError (Instr × List Byte)
  | [] => .error .truncated
  | op :: rest =>
    match lookupRow op with
    | none => .error (.unsupportedOpcode op)
    | some row =>
      match row.build, rest with
      | .op i, _ => .ok (i, rest)
      | .d8 f, d :: rest => .ok (f d, rest)
      | .d16 f, lo :: hi :: rest => .ok (f (joinBytes lo hi), rest)
      | .d8 _, [] => .error .truncated
      | .d16 _, [] => .error .truncated
      | .d16 _, [_] => .error .truncated

/-- The length in bytes of the instruction a first byte starts, `1 + n` (R55); 1 for a byte that is in no row, whose operand
bytes are never read (spec/40_fetch_and_addressing.md R90). -/
def instrLength (op : Byte) : Nat :=
  match lookupRow op with
  | some row => 1 + row.mode.operandBytes
  | none => 1

/-- The bytes of an instruction, opcode first, operand low byte before high byte (R50; R53's table by mnemonic). -/
def encode : Instr → List Byte
  | .ldaImm d => [0xA9, d]
  | .ldaZp d => [0xA5, d]
  | .ldaZpx d => [0xB5, d]
  | .ldaAbs w => [0xAD, lowByte w, highByte w]
  | .ldaAbx w => [0xBD, lowByte w, highByte w]
  | .ldaAby w => [0xB9, lowByte w, highByte w]
  | .ldaIzx d => [0xA1, d]
  | .ldaIzy d => [0xB1, d]
  | .ldxImm d => [0xA2, d]
  | .ldxZp d => [0xA6, d]
  | .ldxZpy d => [0xB6, d]
  | .ldxAbs w => [0xAE, lowByte w, highByte w]
  | .ldxAby w => [0xBE, lowByte w, highByte w]
  | .ldyImm d => [0xA0, d]
  | .ldyZp d => [0xA4, d]
  | .ldyZpx d => [0xB4, d]
  | .ldyAbs w => [0xAC, lowByte w, highByte w]
  | .ldyAbx w => [0xBC, lowByte w, highByte w]
  | .tax => [0xAA]
  | .txa => [0x8A]
  | .tay => [0xA8]
  | .tya => [0x98]
  | .staZp d => [0x85, d]
  | .staZpx d => [0x95, d]
  | .staAbs w => [0x8D, lowByte w, highByte w]
  | .staAbx w => [0x9D, lowByte w, highByte w]
  | .staAby w => [0x99, lowByte w, highByte w]
  | .staIzx d => [0x81, d]
  | .staIzy d => [0x91, d]
  | .clc => [0x18]
  | .adcImm d => [0x69, d]
  | .adcZp d => [0x65, d]
  | .adcZpx d => [0x75, d]
  | .adcAbs w => [0x6D, lowByte w, highByte w]
  | .adcAbx w => [0x7D, lowByte w, highByte w]
  | .adcAby w => [0x79, lowByte w, highByte w]
  | .adcIzx d => [0x61, d]
  | .adcIzy d => [0x71, d]
  | .cmpImm d => [0xC9, d]
  | .cmpZp d => [0xC5, d]
  | .cmpZpx d => [0xD5, d]
  | .cmpAbs w => [0xCD, lowByte w, highByte w]
  | .cmpAbx w => [0xDD, lowByte w, highByte w]
  | .cmpAby w => [0xD9, lowByte w, highByte w]
  | .cmpIzx d => [0xC1, d]
  | .cmpIzy d => [0xD1, d]
  | .cpxImm d => [0xE0, d]
  | .cpxZp d => [0xE4, d]
  | .cpxAbs w => [0xEC, lowByte w, highByte w]
  | .cpyImm d => [0xC0, d]
  | .cpyZp d => [0xC4, d]
  | .cpyAbs w => [0xCC, lowByte w, highByte w]
  | .beqRel d => [0xF0, d]
  | .inx => [0xE8]
  | .dex => [0xCA]
  | .iny => [0xC8]
  | .dey => [0x88]
  | .jmpAbs w => [0x4C, lowByte w, highByte w]
  | .jmpInd w => [0x6C, lowByte w, highByte w]
  | .jsrAbs w => [0x20, lowByte w, highByte w]
  | .brk => [0x00]

/-- The host's reading of a table row's word: the `nbits` lowest bits of `w`, byte 0 the opcode, the bits above `nbits` up to
the longest instruction (three bytes) zero, through the decoder. -/
def tableBytes (nbits w : Nat) : List Byte :=
  let v := w % 2 ^ nbits
  [BitVec.ofNat 8 v, BitVec.ofNat 8 (v / 256), BitVec.ofNat 8 (v / 65536)]

/-- The instruction the decoder reads from the bits `w` of a table row. -/
def decodeTableWord (nbits w : Nat) : Option Instr :=
  match decode (tableBytes nbits w) with
  | .ok (i, _) => some i
  | .error _ => none

end Sys2Proof
end

