-- ==== Sys2Proof/Config.lean ====
section
/-! DEFINITION. The free values: what the spec leaves open and gives no value for. Each is a constant with no body, so that
no proof can see what it is. The spec's open PARAMETERS (PRINT_ADDR, INIT, MEM0, entryAddress: spec/00_scope.md R4) are not
here: they are arguments of `Machine.State.launch`, and statements hold for every value of them. -/

namespace Sys2Proof.Config

/-- FREE VALUE (DESIGN CHOICE of form, safe; log 8). How far past P the PC stands in the state an OutOfRange raised during
decode leaves: spec/60_exceptions.md R147 allows any of P to (P + 1 + n) mod 65536 (D9, U9). It is applied to the whole
state at the start of the step, and Machine.raiseInDecode keeps the spec's bound. -/
opaque outOfRangePcOffset {σ : Type} (s : σ) : Nat

/-- FREE VALUE (DESIGN CHOICE of form, safe; log 15). Whether a write with both a bad address and a bad value reports the
value (InvalidValue) or the address (OutOfRange): spec/20_memory.md R31, U20. The core cannot cause this case (R35). -/
opaque badWriteReportsValue (addr value : Int) : Bool

end Sys2Proof.Config
end

