-- ==== Sys2Proof/Machine/State.lean ====
section
/-! DEFINITION. The state of the machine as plain data, its faults and refusals, and the launch (spec/10_state.md R10 to R27,
spec/60_exceptions.md R140 to R147, spec/70_reset_and_hazards.md R160, R161). -/

namespace Sys2Proof.Machine

/-- AddressSpace (R24): the listed cells, addresses strictly rising, none holding what an unlisted address reads as
(`Memory.wf` in Machine/Ops.lean). -/
abbrev Memory := List Host.Cell

/-- StatusFlags: "six independent booleans, no packing requirement" (R17). There is no overflow flag (C6). -/
structure Flags where
  /-- Negative (R18): written by CMP, CPX, CPY; read by nothing. -/
  n : Bool
  /-- Zero (R19): written by CMP, CPX, CPY; read by BEQ. -/
  z : Bool
  /-- Carry (R20): cleared by CLC; read by nothing. -/
  c : Bool
  /-- Decimal (R21): written and read by nothing. -/
  d : Bool
  /-- InterruptDisable (R21): written and read by nothing. -/
  i : Bool
  /-- Break (R21): written and read by nothing. -/
  b : Bool
deriving DecidableEq, Repr

/-- Where the machine stands: created and not launched yet (R170), a run in progress (R160), a run ended by BRK or by a fault
(R156; R163). -/
inductive RunStatus where
  | created | running | halted | aborted
deriving DecidableEq, Repr

/-- The state: ProcessorState (R10), AddressSpace (R24), the console output (R25), where the run stands (R156, R163, R170), and
the parameter PRINT_ADDR, which no step changes (spec/00_scope.md R4). -/
structure State where
  /-- `A`, the accumulator (R11). -/
  a : Byte
  /-- `X`, index register X (R12). -/
  x : Byte
  /-- `Y`, index register Y (R13). -/
  y : Byte
  /-- `SP`, the stack pointer (R14): no instruction reads or writes it. -/
  sp : Byte
  /-- `PC`, the program counter (R16). -/
  pc : Word
  /-- The six flags (R17). -/
  flags : Flags
  /-- AddressSpace (R24). -/
  mem : Memory
  /-- The bytes emitted on the console port, oldest first (R25). -/
  console : List Byte
  /-- Where the run stands. -/
  status : RunStatus
  /-- `PRINT_ADDR`, a parameter of the machine (R4, D3; log 1). -/
  printAddr : Word
deriving DecidableEq, Repr

/-- What UnsupportedInstruction identifies (R143). -/
inductive Unsupported where
  /-- The opcode byte at P is not in the table (R90): the byte, and P. -/
  | opcode (op : Byte) (address : Word)
  /-- A JSR to an address other than PRINT_ADDR (R131): the target. -/
  | jsrTarget (address : Word)
deriving DecidableEq, Repr

/-- What a memory-port transaction can fail with (spec/20_memory.md R30, R31). The address and the value are integers. -/
inductive PortError where
  | outOfRange (addr : Int)
  | invalidValue (value : Int)
deriving DecidableEq, Repr

/-- The three fatal conditions (R140, R144), each with what it carries to the caller of `run` and the state it leaves
(R146, R147). The machine stops; nothing is retried (log 7). -/
inductive Fault where
  /-- OutOfRange (R141): raised in decode by the eager read or a pointer read. Safe: the spec's own stop. -/
  | outOfRange (addr : Int) (left : State)
  /-- InvalidValue (R142): raised by the write port; no instruction can cause it. Safe: the spec's own, unreachable. -/
  | invalidValue (value : Int) (left : State)
  /-- UnsupportedInstruction (R143): raised at lookup, or by JSR to an address that is not PRINT_ADDR. Safe: the spec's own
  stop. -/
  | unsupportedInstruction (what : Unsupported) (left : State)
deriving DecidableEq, Repr

/-- Refusals: the model refuses no instruction of the table. -/
inductive Refusal where
  /-- Raised by an arm of `exec` that has no meaning yet; there is no such arm. Safe. -/
  | notModelled (mnemonic : String)
deriving DecidableEq, Repr

/-- What a step answers: the next state (a halted one after BRK, log 6), a fault, or a refusal. -/
abbrev Result := Host.Outcome State Fault Refusal

/-- INIT: the launch values the spec leaves open (R27, D8). -/
structure Init where
  a : Byte
  x : Byte
  y : Byte
  sp : Byte
  flags : Flags
deriving DecidableEq, Repr

/-- The launch `run(entryAddress)` with the parameters of R4 as arguments (R160, R161, R27): PC at the entry address, INIT in
the registers and flags, MEM0 in AddressSpace, nothing emitted. -/
def State.launch (printAddr : Word) (init : Init) (mem0 : Memory) (entryAddress : Word) : State where
  a := init.a
  x := init.x
  y := init.y
  sp := init.sp
  pc := entryAddress
  flags := init.flags
  mem := mem0
  console := []
  status := .running
  printAddr := printAddr

/-- The INIT that `State.reset` names. DESIGN CHOICE, unsafe (log 2, log 3): the spec states no launch value (R27) and says
a model must not assume zero, so no statement rests on these. -/
def resetInit : Init where
  a := 0
  x := 0
  y := 0
  sp := 0
  flags := ⟨false, false, false, false, false, false⟩

/-- The PRINT_ADDR that `State.reset` names. PRESUMED, unsafe (log 1): the C64 family's character-output entry, the value the
spec's vectors use; the spec itself leaves it open (D3). -/
def resetPrintAddr : Word := 0xFFD2

/-- The entry address that `State.reset` names. DESIGN CHOICE, unsafe (log 4): it is an argument of `run` (R160). -/
def resetEntry : Word := 0

/-- The machine right after reset: a launch (R161) with the parameters named above and nothing loaded (R24; log 5). -/
def State.reset : State := State.launch resetPrintAddr resetInit [] resetEntry

end Sys2Proof.Machine
end

