-- ==== Sys2Proof/Machine/Ops.lean ====
section
/-! DEFINITION. The named operations: AddressSpace, the memory port, register writes, the console port, and raising a fault
(spec/20_memory.md, spec/10_state.md, spec/60_exceptions.md). -/

namespace Sys2Proof.Machine

/-! ### AddressSpace -/

/-- The number of cells (spec/00_scope.md R4; R36). -/
def spaceSize : Nat := 65536

/-- What an unlisted address reads as: "reading an address never written returns 0" (R24, R30). -/
def Memory.unlisted : Byte := 0

/-- The byte a cell holds. -/
def Memory.read : Memory → Nat → Byte
  | [], _ => Memory.unlisted
  | (key, value) :: rest, addr => if key = addr then value else Memory.read rest addr

/-- Stores a byte, keeping the canonical form: storing what an unlisted address reads as removes the entry. -/
def Memory.write : Memory → Nat → Byte → Memory
  | [], addr, v => if v = Memory.unlisted then [] else [(addr, v)]
  | (key, value) :: rest, addr, v =>
    if key < addr then (key, value) :: Memory.write rest addr v
    else
      let above := if key = addr then rest else (key, value) :: rest
      if v = Memory.unlisted then above else (addr, v) :: above

/-- The canonical form from an address on: keys rise strictly, exist, and hold something else than an unlisted cell. -/
def Memory.wfFrom : Nat → Memory → Bool
  | _, [] => true
  | low, (key, value) :: rest =>
    decide (low ≤ key) && decide (key < spaceSize) && decide (value ≠ Memory.unlisted) && Memory.wfFrom (key + 1) rest

/-- The canonical form of AddressSpace. -/
def Memory.wf (m : Memory) : Bool := Memory.wfFrom 0 m

/-! ### The memory port -/

/-- The range check of the port on the address: `[0, 65536)` (R30, R36). -/
def inSpace : Int → Bool
  | .ofNat n => Nat.ble n 65535
  | .negSucc _ => false

/-- The range check of the port on the value: `[0, 255]` (R31). -/
def isByte : Int → Bool
  | .ofNat n => Nat.ble n 255
  | .negSucc _ => false

/-- `MemRead(addr, 1)` (R30): the address is an integer, never reduced (R38). -/
def memRead (m : Memory) (addr : Int) : Except PortError Byte :=
  if inSpace addr then .ok (Memory.read m addr.toNat) else .error (.outOfRange addr)

/-- `MemWrite(addr, 1, value)` (R31). Where address and value are both bad either error may be reported (U20; log 15). -/
def memWrite (m : Memory) (addr value : Int) : Except PortError Memory :=
  if inSpace addr then
    if isByte value then .ok (Memory.write m addr.toNat (BitVec.ofInt 8 value))
    else .error (.invalidValue value)
  else if isByte value then .error (.outOfRange addr)
  else if Config.badWriteReportsValue addr value then .error (.invalidValue value)
  else .error (.outOfRange addr)

/-- `MemRead(loc, 2)`: two byte transactions, the lower address first, little-endian (R32, R34; `loc + 1` is not wrapped, R38). -/
def memRead2 (m : Memory) (loc : Int) : Except PortError Word :=
  match memRead m loc with
  | .error e => .error e
  | .ok lo =>
    match memRead m (loc + 1) with
    | .error e => .error e
    | .ok hi => .ok (joinBytes lo hi)

/-! ### Register writes (R15: a write stores the value modulo 2^width) -/

/-- `A <- v`. -/
def State.setA (s : State) (v : Byte) : State := { s with a := v }

/-- `X <- v`. -/
def State.setX (s : State) (v : Byte) : State := { s with x := v }

/-- `Y <- v`. -/
def State.setY (s : State) (v : Byte) : State := { s with y := v }

/-- `pc <- target`. -/
def State.setPc (s : State) (target : Word) : State := { s with pc := target }

/-- Writes the flags; which of them change is said by the flag computation (Machine/Flags.lean). -/
def State.setFlags (s : State) (f : Flags) : State := { s with flags := f }

/-- AddressSpace after a write. -/
def State.setMem (s : State) (m : Memory) : State := { s with mem := m }

/-- Where the run stands. -/
def State.setStatus (s : State) (r : RunStatus) : State := { s with status := r }

/-- The PC advance past `count` consumed bytes, modulo 65536 (R16; spec/40_fetch_and_addressing.md R72). -/
def State.advance (s : State) (count : Nat) : State := s.setPc (s.pc + BitVec.ofNat 16 count)

/-- `ConsoleEmit(b)`: the byte joins the output; the console returns nothing and cannot fail (spec/60_exceptions.md R154;
D14; log 16). -/
def State.emit (s : State) (b : Byte) : State := { s with console := s.console ++ [b] }

/-! ### Taking an exception

The machine's only exceptions are the three fatal conditions. Nothing is saved, there is no vector and no handler, and there
is no return from one (R146, R148): the run ends. -/

/-- Raises a fault (R146): the step and the run end with it; `left` is the state it leaves, the run aborted. -/
def raise (fault : State → Fault) (left : State) : Result := .fault (fault (left.setStatus .aborted))

/-- Raises the fault a memory-port transaction failed with (R141, R142). -/
def raisePort (e : PortError) (left : State) : Result :=
  match e with
  | .outOfRange addr => raise (.outOfRange addr) left
  | .invalidValue value => raise (.invalidValue value) left

/-- Raises a port failure during the decode of an instruction with `n` operand bytes, from the state `s` at the start of the
step: nothing has changed but the PC, which may be anything from P to P + 1 + n (R147, D9; a free value, log 8). -/
def raiseInDecode (e : PortError) (n : Nat) (s : State) : Result :=
  raisePort e (s.advance (Config.outOfRangePcOffset s % (n + 2)))

end Sys2Proof.Machine
end

