-- ==== Sys2Proof/Machine/Flags.lean ====
section
/-! DEFINITION. The flag computations and the 8-bit ALU (spec/42_alu_flags.md R110 to R116). -/

namespace Sys2Proof.Machine

/-- The flags after `compare(reg, value)` (R112): `result = reg - value` in the integers; N <- (result < 0),
Z <- (result == 0); every other flag stays. -/
def compareFlags (reg value : Byte) (f : Flags) : Flags :=
  let result : Int := (reg.toNat : Int) - (value.toNat : Int)
  { f with n := decide (result < 0), z := decide (result = 0) }

/-- The flags after CLC (R110): C <- false; every other flag stays. -/
def clearCarry (f : Flags) : Flags := { f with c := false }

/-- ADC's sum (R111): `(A + value) mod 256`, no carry in, no carry out (D6; log 11). -/
def addBytes (a value : Byte) : Byte := BitVec.ofNat 8 (a.toNat + value.toNat)

/-- `(r + 1) mod 256` (R116 d). -/
def incByte (r : Byte) : Byte := BitVec.ofNat 8 (r.toNat + 1)

/-- `(r - 1) mod 256`, so that 0 gives 255 (R116 d). -/
def decByte (r : Byte) : Byte := BitVec.ofNat 8 (r.toNat + 255)

end Sys2Proof.Machine
end

