-- ==== Sys2Proof/Machine/Operands.lean ====
section
/-! DEFINITION. The operand forms: how each addressing mode becomes a value or an effective address, the eager operand read,
and what the Executor receives (spec/40_fetch_and_addressing.md R73 to R88). All sums are integers, never reduced (R38). -/

namespace Sys2Proof.Machine

/-- `sext_8(d)`: the signed reading of a Relative operand (spec/30_encoding.md R51). -/
def sext8 (d : Byte) : Int := if 128 ≤ d.toNat then (d.toNat : Int) - 256 else d.toNat

/-- The base of a Relative operand: the address of the operand byte, `(P + 1) mod 65536` (R72, R82, D4; log 10). -/
def relativeBase (s : State) : Nat := (s.pc + 1).toNat

/-- Where a mode reads its pointer's low byte, for the three modes with a pointer (R83, R84, R85); the high byte is at the
address one above. -/
def pointerLoc (m : MemForm) (s : State) : Option Int :=
  match m with
  | .ind w => some w.toNat
  | .izx d => some (d.toNat + s.x.toNat : Nat)
  | .izy d => some d.toNat
  | .abs _ | .abx _ | .aby _ | .zp _ | .zpx _ | .zpy _ | .rel _ => none

/-- The effective address `ea` of each memory mode (R76 to R85), from the state at the start of the step. It fails where the
pointer's high byte lies outside AddressSpace. -/
def effectiveAddress (m : MemForm) (s : State) : Except PortError Int :=
  match m with
  | .abs w => .ok w.toNat
  | .abx w => .ok (w.toNat + s.x.toNat : Nat)
  | .aby w => .ok (w.toNat + s.y.toNat : Nat)
  | .zp d => .ok d.toNat
  | .zpx d => .ok (d.toNat + s.x.toNat : Nat)
  | .zpy d => .ok (d.toNat + s.y.toNat : Nat)
  | .rel d => .ok (relativeBase s + sext8 d)
  | .ind w => (memRead2 s.mem w.toNat).map fun p => (p.toNat : Int)
  | .izx d => (memRead2 s.mem (d.toNat + s.x.toNat : Nat)).map fun p => (p.toNat : Int)
  | .izy d => (memRead2 s.mem d.toNat).map fun p => ((p.toNat + s.y.toNat : Nat) : Int)

/-- The resolution of a memory mode: the effective address and the byte the eager read finds there. The read is made in
every mode that resolves an address, whatever the mnemonic (R86, D5; log 12). Once it has succeeded the address is one of
AddressSpace (R88). -/
def resolveMem (m : MemForm) (s : State) : Except PortError (Word × Byte) :=
  match effectiveAddress m s with
  | .error e => .error e
  | .ok ea =>
    match memRead s.mem ea with
    | .error e => .error e
    | .ok value => .ok (BitVec.ofInt 16 ea, value)

/-- The shapes of an Instruction record (R88), without its mnemonic. -/
inductive Operand where
  | implied
  | accumulator (value : Byte)
  | immediate (value : Byte)
  | memory (addr : Word) (value : Byte)
deriving DecidableEq, Repr

/-- What the Decoder hands to the Executor for an operand (R73 to R88). -/
def resolve (o : OperandForm) (s : State) : Except PortError Operand :=
  match o with
  | .imp => .ok .implied
  | .acc => .ok (.accumulator s.a)
  | .imm d => .ok (.immediate d)
  | .mem m => (resolveMem m s).map fun r => .memory r.1 r.2

/-! ### One instruction: resolve, advance the PC, act (R70, steps 3 to 5) -/

/-- An Implied instruction: nothing to resolve, the PC past one byte, then the action. -/
def execImplied (act : State → State) (s : State) : Result := .next (act (s.advance 1))

/-- An Immediate instruction: the value is the operand byte, the PC past two bytes, then the action. -/
def execImmediate (d : Byte) (act : Byte → State → State) (s : State) : Result := .next (act d (s.advance 2))

/-- A memory-mode instruction: resolve with the eager read, or raise the first failure (R87); the PC past `1 + n` bytes
(R72); then the action on address and value. -/
def execMemory (m : MemForm) (act : Word → Byte → State → Result) (s : State) : Result :=
  match resolveMem m s with
  | .error e => raiseInDecode e m.mode.operandBytes s
  | .ok (addr, value) => act addr value (s.advance (1 + m.mode.operandBytes))

/-- A memory-mode instruction that uses the value alone. -/
def execMemoryValue (m : MemForm) (act : Byte → State → State) (s : State) : Result :=
  execMemory m (fun _ value t => .next (act value t)) s

/-- A memory-mode instruction that uses the address alone; the eagerly read value is ignored. -/
def execMemoryAddr (m : MemForm) (act : Word → State → Result) (s : State) : Result :=
  execMemory m (fun addr _ t => act addr t) s

end Sys2Proof.Machine
end

