-- ==== Sys2Proof/Machine/Alu.lean ====
section
/-! DEFINITION. CLC, ADC, CMP, CPX, CPY (spec/42_alu_flags.md R110 to R115). -/

namespace Sys2Proof.Machine

/-- CLC's action (R110): C <- false. -/
def clearC (s : State) : State := s.setFlags (clearCarry s.flags)

/-- ADC's action (R111): A <- (A + value) mod 256. -/
def addToA (value : Byte) (s : State) : State := s.setA (addBytes s.a value)

/-- CMP's action (R113): compare(A, value). -/
def compareA (value : Byte) (s : State) : State := s.setFlags (compareFlags s.a value s.flags)

/-- CPX's action (R114): compare(X, value). -/
def compareX (value : Byte) (s : State) : State := s.setFlags (compareFlags s.x value s.flags)

/-- CPY's action (R115): compare(Y, value). -/
def compareY (value : Byte) (s : State) : State := s.setFlags (compareFlags s.y value s.flags)

/-- `CLC` (R110, R73). -/
def execClc (s : State) : Result := execImplied clearC s

/-- `ADC #d` (R111, R75). -/
def execAdcImm (d : Byte) (s : State) : Result := execImmediate d addToA s

/-- `ADC d` (R111, R79). -/
def execAdcZp (d : Byte) (s : State) : Result := execMemoryValue (.zp d) addToA s

/-- `ADC d,X` (R111, R80). -/
def execAdcZpx (d : Byte) (s : State) : Result := execMemoryValue (.zpx d) addToA s

/-- `ADC w` (R111, R76). -/
def execAdcAbs (w : Word) (s : State) : Result := execMemoryValue (.abs w) addToA s

/-- `ADC w,X` (R111, R77). -/
def execAdcAbx (w : Word) (s : State) : Result := execMemoryValue (.abx w) addToA s

/-- `ADC w,Y` (R111, R78). -/
def execAdcAby (w : Word) (s : State) : Result := execMemoryValue (.aby w) addToA s

/-- `ADC (d,X)` (R111, R84). -/
def execAdcIzx (d : Byte) (s : State) : Result := execMemoryValue (.izx d) addToA s

/-- `ADC (d),Y` (R111, R85). -/
def execAdcIzy (d : Byte) (s : State) : Result := execMemoryValue (.izy d) addToA s

/-- `CMP #d` (R113, R75). -/
def execCmpImm (d : Byte) (s : State) : Result := execImmediate d compareA s

/-- `CMP d` (R113, R79). -/
def execCmpZp (d : Byte) (s : State) : Result := execMemoryValue (.zp d) compareA s

/-- `CMP d,X` (R113, R80). -/
def execCmpZpx (d : Byte) (s : State) : Result := execMemoryValue (.zpx d) compareA s

/-- `CMP w` (R113, R76). -/
def execCmpAbs (w : Word) (s : State) : Result := execMemoryValue (.abs w) compareA s

/-- `CMP w,X` (R113, R77). -/
def execCmpAbx (w : Word) (s : State) : Result := execMemoryValue (.abx w) compareA s

/-- `CMP w,Y` (R113, R78). -/
def execCmpAby (w : Word) (s : State) : Result := execMemoryValue (.aby w) compareA s

/-- `CMP (d,X)` (R113, R84). -/
def execCmpIzx (d : Byte) (s : State) : Result := execMemoryValue (.izx d) compareA s

/-- `CMP (d),Y` (R113, R85). -/
def execCmpIzy (d : Byte) (s : State) : Result := execMemoryValue (.izy d) compareA s

/-- `CPX #d` (R114, R75). -/
def execCpxImm (d : Byte) (s : State) : Result := execImmediate d compareX s

/-- `CPX d` (R114, R79). -/
def execCpxZp (d : Byte) (s : State) : Result := execMemoryValue (.zp d) compareX s

/-- `CPX w` (R114, R76). -/
def execCpxAbs (w : Word) (s : State) : Result := execMemoryValue (.abs w) compareX s

/-- `CPY #d` (R115, R75). -/
def execCpyImm (d : Byte) (s : State) : Result := execImmediate d compareY s

/-- `CPY d` (R115, R79). -/
def execCpyZp (d : Byte) (s : State) : Result := execMemoryValue (.zp d) compareY s

/-- `CPY w` (R115, R76). -/
def execCpyAbs (w : Word) (s : State) : Result := execMemoryValue (.abs w) compareY s

end Sys2Proof.Machine
end

