-- ==== Sys2Proof/Machine/Branch.lean ====
section
/-! DEFINITION. BEQ (spec/43_branch.md R120). -/

namespace Sys2Proof.Machine

/-- BEQ's action (R120): if Z, pc <- (addr + 1) mod 65536; else the PC stays past the instruction. -/
def branchIfZero (addr : Word) (s : State) : Result := .next (if s.flags.z then s.setPc (addr + 1) else s)

/-- `BEQ d` (R120, R82). -/
def execBeqRel (d : Byte) (s : State) : Result := execMemoryAddr (.rel d) branchIfZero s

end Sys2Proof.Machine
end

