-- ==== Sys2Proof/Machine/Control.lean ====
section
/-! DEFINITION. JMP, JSR, BRK (spec/45_jump_call_halt.md R130 to R132). -/

namespace Sys2Proof.Machine

/-- JMP's action (R130): pc <- addr. -/
def jumpTo (addr : Word) (s : State) : Result := .next (s.setPc addr)

/-- JSR's action (R131): the console receives A when `addr` is PRINT_ADDR, and execution goes on after the JSR; any other
address is an unsupported instruction, raised after decode (the PC is P + 3, R147). -/
def callPrint (addr : Word) (s : State) : Result :=
  if addr = s.printAddr then .next (s.emit s.a)
  else raise (.unsupportedInstruction (.jsrTarget addr)) s

/-- BRK's action (R132): the run ends normally; the PC is past the BRK, nothing else changes (R163; log 6). -/
def halt (s : State) : State := s.setStatus .halted

/-- `JMP w` (R130, R76). -/
def execJmpAbs (w : Word) (s : State) : Result := execMemoryAddr (.abs w) jumpTo s

/-- `JMP (w)` (R130, R83). -/
def execJmpInd (w : Word) (s : State) : Result := execMemoryAddr (.ind w) jumpTo s

/-- `JSR w` (R131, R76). -/
def execJsrAbs (w : Word) (s : State) : Result := execMemoryAddr (.abs w) callPrint s

/-- `BRK` (R132, R73). -/
def execBrk (s : State) : Result := execImplied halt s

end Sys2Proof.Machine
end

