-- ==== Sys2Proof/Machine/IncDec.lean ====
section
/-! DEFINITION. INX, DEX, INY, DEY (spec/44_incdec.md R125 to R128). None of them writes a flag. -/

namespace Sys2Proof.Machine

/-- INX's action (R125): X <- (X + 1) mod 256. -/
def incrementX (s : State) : State := s.setX (incByte s.x)

/-- DEX's action (R126): X <- (X - 1) mod 256. -/
def decrementX (s : State) : State := s.setX (decByte s.x)

/-- INY's action (R127): Y <- (Y + 1) mod 256. -/
def incrementY (s : State) : State := s.setY (incByte s.y)

/-- DEY's action (R128): Y <- (Y - 1) mod 256. -/
def decrementY (s : State) : State := s.setY (decByte s.y)

/-- `INX` (R125, R73). -/
def execInx (s : State) : Result := execImplied incrementX s

/-- `DEX` (R126, R73). -/
def execDex (s : State) : Result := execImplied decrementX s

/-- `INY` (R127, R73). -/
def execIny (s : State) : Result := execImplied incrementY s

/-- `DEY` (R128, R73). -/
def execDey (s : State) : Result := execImplied decrementY s

end Sys2Proof.Machine
end

