-- ==== Sys2Proof/Machine/LoadStore.lean ====
section
/-! DEFINITION. LDA, LDX, LDY, TAX, TXA, TAY, TYA, STA (spec/41_load_transfer_store.md R100 to R107). None of them writes a flag. -/

namespace Sys2Proof.Machine

/-- LDA's action (R100): A <- value. -/
def loadA (value : Byte) (s : State) : State := s.setA value

/-- LDX's action (R101): X <- value. -/
def loadX (value : Byte) (s : State) : State := s.setX value

/-- LDY's action (R102): Y <- value. -/
def loadY (value : Byte) (s : State) : State := s.setY value

/-- TAX's action (R103): X <- A. -/
def transferAX (s : State) : State := s.setX s.a

/-- TXA's action (R104): A <- X. -/
def transferXA (s : State) : State := s.setA s.x

/-- TAY's action (R105): Y <- A. -/
def transferAY (s : State) : State := s.setY s.a

/-- TYA's action (R106): A <- Y. -/
def transferYA (s : State) : State := s.setA s.y

/-- STA's action (R107): MemWrite(addr, 1, A). The port cannot fail here: decode has read `addr`, and A is a byte. -/
def storeA (addr : Word) (s : State) : Result :=
  match memWrite s.mem addr.toNat s.a.toNat with
  | .error e => raisePort e s
  | .ok m => .next (s.setMem m)

/-- `LDA #d` (R100, R75). -/
def execLdaImm (d : Byte) (s : State) : Result := execImmediate d loadA s

/-- `LDA d` (R100, R79). -/
def execLdaZp (d : Byte) (s : State) : Result := execMemoryValue (.zp d) loadA s

/-- `LDA d,X` (R100, R80). -/
def execLdaZpx (d : Byte) (s : State) : Result := execMemoryValue (.zpx d) loadA s

/-- `LDA w` (R100, R76). -/
def execLdaAbs (w : Word) (s : State) : Result := execMemoryValue (.abs w) loadA s

/-- `LDA w,X` (R100, R77). -/
def execLdaAbx (w : Word) (s : State) : Result := execMemoryValue (.abx w) loadA s

/-- `LDA w,Y` (R100, R78). -/
def execLdaAby (w : Word) (s : State) : Result := execMemoryValue (.aby w) loadA s

/-- `LDA (d,X)` (R100, R84). -/
def execLdaIzx (d : Byte) (s : State) : Result := execMemoryValue (.izx d) loadA s

/-- `LDA (d),Y` (R100, R85). -/
def execLdaIzy (d : Byte) (s : State) : Result := execMemoryValue (.izy d) loadA s

/-- `LDX #d` (R101, R75). -/
def execLdxImm (d : Byte) (s : State) : Result := execImmediate d loadX s

/-- `LDX d` (R101, R79). -/
def execLdxZp (d : Byte) (s : State) : Result := execMemoryValue (.zp d) loadX s

/-- `LDX d,Y` (R101, R81). -/
def execLdxZpy (d : Byte) (s : State) : Result := execMemoryValue (.zpy d) loadX s

/-- `LDX w` (R101, R76). -/
def execLdxAbs (w : Word) (s : State) : Result := execMemoryValue (.abs w) loadX s

/-- `LDX w,Y` (R101, R78). -/
def execLdxAby (w : Word) (s : State) : Result := execMemoryValue (.aby w) loadX s

/-- `LDY #d` (R102, R75). -/
def execLdyImm (d : Byte) (s : State) : Result := execImmediate d loadY s

/-- `LDY d` (R102, R79). -/
def execLdyZp (d : Byte) (s : State) : Result := execMemoryValue (.zp d) loadY s

/-- `LDY d,X` (R102, R80). -/
def execLdyZpx (d : Byte) (s : State) : Result := execMemoryValue (.zpx d) loadY s

/-- `LDY w` (R102, R76). -/
def execLdyAbs (w : Word) (s : State) : Result := execMemoryValue (.abs w) loadY s

/-- `LDY w,X` (R102, R77). -/
def execLdyAbx (w : Word) (s : State) : Result := execMemoryValue (.abx w) loadY s

/-- `TAX` (R103, R73). -/
def execTax (s : State) : Result := execImplied transferAX s

/-- `TXA` (R104, R73). -/
def execTxa (s : State) : Result := execImplied transferXA s

/-- `TAY` (R105, R73). -/
def execTay (s : State) : Result := execImplied transferAY s

/-- `TYA` (R106, R73). -/
def execTya (s : State) : Result := execImplied transferYA s

/-- `STA d` (R107, R79). -/
def execStaZp (d : Byte) (s : State) : Result := execMemoryAddr (.zp d) storeA s

/-- `STA d,X` (R107, R80). -/
def execStaZpx (d : Byte) (s : State) : Result := execMemoryAddr (.zpx d) storeA s

/-- `STA w` (R107, R76). -/
def execStaAbs (w : Word) (s : State) : Result := execMemoryAddr (.abs w) storeA s

/-- `STA w,X` (R107, R77). -/
def execStaAbx (w : Word) (s : State) : Result := execMemoryAddr (.abx w) storeA s

/-- `STA w,Y` (R107, R78). -/
def execStaAby (w : Word) (s : State) : Result := execMemoryAddr (.aby w) storeA s

/-- `STA (d,X)` (R107, R84). -/
def execStaIzx (d : Byte) (s : State) : Result := execMemoryAddr (.izx d) storeA s

/-- `STA (d),Y` (R107, R85). -/
def execStaIzy (d : Byte) (s : State) : Result := execMemoryAddr (.izy d) storeA s

end Sys2Proof.Machine
end

