-- ==== Sys2Proof/Machine/Fetch.lean ====
section
/-! DEFINITION. Fetching an instruction's bytes (spec/40_fetch_and_addressing.md R70, R71, R90), and placing them. -/

namespace Sys2Proof.Machine

/-- The address of the k-th byte of the instruction at PC: fetch addresses come from the PC register and wrap (R71). -/
def fetchAddr (s : State) (k : Nat) : Nat := (s.pc + BitVec.ofNat 16 k).toNat

/-- The k-th byte of the instruction at PC. The read cannot fail (R71). -/
def fetchByte (s : State) (k : Nat) : Byte := Memory.read s.mem (fetchAddr s k)

/-- The bytes of the instruction at PC: the opcode, then as many operand bytes as its row asks for, low address first (R71);
none where the opcode is in no row (R90). -/
def fetchBytes (s : State) : List Byte := (List.range (instrLength (fetchByte s 0))).map (fetchByte s)

/-- The instruction at PC, or none where the opcode byte is not in the table. -/
def fetch (s : State) : Option Instr :=
  match decode (fetchBytes s) with
  | .ok (i, _) => some i
  | .error _ => none

/-- The fault at lookup (R90): the opcode byte and its address; the PC stays P and nothing changes. -/
def raiseUnsupportedOpcode (s : State) : Result :=
  raise (.unsupportedInstruction (.opcode (fetchByte s 0) s.pc)) s

/-- Stores bytes where `fetch` reads them: the first at PC, the others at rising, wrapping addresses. -/
def placeBytes (s : State) : Nat → List Byte → Memory → Memory
  | _, [], m => m
  | k, b :: rest, m => placeBytes s (k + 1) rest (Memory.write m (fetchAddr s k) b)

end Sys2Proof.Machine
end

