-- ==== Sys2Proof/Machine/Step.lean ====
section
/-! DEFINITION. One step of the machine: one iteration of the RunLoop (spec/40_fetch_and_addressing.md R70). -/

namespace Sys2Proof.Machine

/-- One step: while a run is in progress, fetch and run the instruction at PC, or raise UnsupportedInstruction (R70, R89,
R90). Where no run is in progress nothing executes: before the launch only `run` starts execution, and after an end "nothing
wakes the core" (spec/60_exceptions.md R156; spec/70_reset_and_hazards.md R160; log 6). -/
def step (s : State) : Host.Outcome State Fault Refusal :=
  match s.status with
  | .running =>
    match fetch s with
    | some i => exec i s
    | none => raiseUnsupportedOpcode s
  | .created => .next s
  | .halted => .next s
  | .aborted => .next s

/-- `s` with the instruction of a table row's word (the bits above `nbits` zero, three bytes in all) stored at PC, and a run
in progress, so that the next step runs it (log 5). -/
def State.withFetchWord (s : State) (nbits w : Nat) : State :=
  { s with mem := placeBytes s 0 (tableBytes nbits w) s.mem, status := .running }

end Sys2Proof.Machine
end

