-- ==== Sys2Proof/Machine/Assembly.lean ====
section
/-! DEFINITION. The assembler forms (spec/30_encoding.md R57): an instruction as text, and the operand byte an assembler
emits for a branch. No step calls these. -/

namespace Sys2Proof.Machine

/-- The byte an assembler emits so that a taken branch at `p` continues at `target`: `(T - (P + 2)) mod 256`, where the
difference lies in [-128, 127] (R57). -/
def branchOperand (p target : Word) : Option Byte :=
  let offset : Int := (target.toNat : Int) - (p.toNat + 2 : Nat)
  if -128 ≤ offset ∧ offset ≤ 127 then some (BitVec.ofInt 8 offset) else none

/-- A mnemonic as the source writes it. -/
def mnemonicText : Mnemonic → String
  | .lda => "LDA" | .ldx => "LDX" | .ldy => "LDY" | .tax => "TAX" | .txa => "TXA" | .tay => "TAY" | .tya => "TYA"
  | .sta => "STA" | .clc => "CLC" | .adc => "ADC" | .cmp => "CMP" | .cpx => "CPX" | .cpy => "CPY" | .beq => "BEQ"
  | .inx => "INX" | .dex => "DEX" | .iny => "INY" | .dey => "DEY" | .jmp => "JMP" | .jsr => "JSR" | .brk => "BRK"

/-- One hexadecimal digit. -/
def hexDigit (n : Nat) : String :=
  ["0", "1", "2", "3", "4", "5", "6", "7", "8", "9", "A", "B", "C", "D", "E", "F"].getD (n % 16) "0"

/-- `$nn`. -/
def hexByte (b : Byte) : String := "$" ++ hexDigit (b.toNat / 16) ++ hexDigit b.toNat

/-- `$nnnn`. -/
def hexWord (w : Word) : String :=
  "$" ++ hexDigit (w.toNat / 4096) ++ hexDigit (w.toNat / 256) ++ hexDigit (w.toNat / 16) ++ hexDigit w.toNat

/-- A branch target relative to the instruction's own address, `*+k` or `*-k`: a taken branch continues at P + 2 + offset
(R57; spec/43_branch.md R120). -/
def relativeText (d : Byte) : String :=
  let k := sext8 d + 2
  if 0 ≤ k then "*+" ++ toString k.toNat else "*-" ++ toString (-k).toNat

/-- An operand as text (R57). -/
def operandText : OperandForm → String
  | .imp => ""
  | .acc => " A"
  | .imm d => " #" ++ hexByte d
  | .mem (.zp d) => " " ++ hexByte d
  | .mem (.zpx d) => " " ++ hexByte d ++ ",X"
  | .mem (.zpy d) => " " ++ hexByte d ++ ",Y"
  | .mem (.abs w) => " " ++ hexWord w
  | .mem (.abx w) => " " ++ hexWord w ++ ",X"
  | .mem (.aby w) => " " ++ hexWord w ++ ",Y"
  | .mem (.ind w) => " (" ++ hexWord w ++ ")"
  | .mem (.izx d) => " (" ++ hexByte d ++ ",X)"
  | .mem (.izy d) => " (" ++ hexByte d ++ "),Y"
  | .mem (.rel d) => " " ++ relativeText d

/-- An instruction as text (R57). -/
def instrText (i : Instr) : String := mnemonicText i.mnemonic ++ operandText i.form

end Sys2Proof.Machine
end

