-- ==== Sys2Proof/Machine/HostPort.lean ====
section
/-! DEFINITION. What the host can do, and when (spec/70_reset_and_hazards.md R170): create, load, poke, peek, attach a
console, run and inspect, only while no run is in progress. No step calls these. -/

namespace Sys2Proof.Machine

/-- Why a host move fails. -/
inductive HostError where
  /-- The port's error, surfaced to the host (R170, R31). -/
  | port (e : PortError)
  /-- A run is in progress: "the host has no such move" (R170). -/
  | runInProgress
  /-- The move belongs before the launch, and there has been one (R170). -/
  | alreadyLaunched
  /-- The move belongs after the end of a run, and none has been launched (R170). -/
  | notLaunched
  /-- A file without the two bytes of its load address; the spec gives it no meaning (log 18). -/
  | shortFile
deriving DecidableEq, Repr

/-- Surfaces a port error. -/
def surface {α : Type} : Except PortError α → Except HostError α
  | .error e => .error (.port e)
  | .ok v => .ok v

/-- Stores bytes through the write port at rising addresses. -/
def pokeBytes : Memory → Nat → List Byte → Except PortError Memory
  | m, _, [] => .ok m
  | m, addr, b :: rest =>
    match memWrite m addr b.toNat with
    | .error e => .error e
    | .ok m' => pokeBytes m' (addr + 1) rest

/-- Loads a program file into AddressSpace: "little-endian 16-bit load address in the first two bytes of a file, followed by
raw program bytes loaded contiguously" (R170). A file that runs past 65535 fails with the port's error (log 18). -/
def loadFile (m : Memory) : List Byte → Except HostError Memory
  | lo :: hi :: bytes => surface (pokeBytes m (joinBytes lo hi).toNat bytes)
  | _ => .error .shortFile

/-- A host move is possible only while no run is in progress: before the launch and after the end (R170). -/
def whenIdle {α : Type} (s : State) (move : Except HostError α) : Except HostError α :=
  if s.status = .running then .error .runInProgress else move

/-- Create ProcessorState and AddressSpace (R170): the host gives INIT and gets a machine with every cell reading 0, nothing
emitted and no run begun. What PC holds until `run` sets it is an argument, since the spec states no value (log 27). -/
def hostCreate (printAddr : Word) (init : Init) (pc : Word) : State :=
  { State.launch printAddr init [] pc with status := .created }

/-- Attach a console (R170), before the launch: a sink to which nothing has been emitted (R154; log 27). -/
def hostAttachConsole (s : State) : Except HostError State :=
  match s.status with
  | .created => .ok { s with console := [] }
  | .running => .error .runInProgress
  | .halted => .error .alreadyLaunched
  | .aborted => .error .alreadyLaunched

/-- Peek (R170), before the launch and after the end: the byte, or OutOfRange. -/
def hostPeek (s : State) (addr : Int) : Except HostError Byte := whenIdle s (surface (memRead s.mem addr))

/-- Poke (R170), before the launch and after the end: the cell changed, or OutOfRange / InvalidValue. -/
def hostPoke (s : State) (addr value : Int) : Except HostError State :=
  whenIdle s (surface ((memWrite s.mem addr value).map s.setMem))

/-- Load a program (R170), before a launch: the first, or the next one after an end (log 18). -/
def hostLoad (s : State) (file : List Byte) : Except HostError State :=
  whenIdle s ((loadFile s.mem file).map s.setMem)

/-- The registers and flags: ProcessorState (spec/10_state.md R10). -/
structure ProcessorState where
  a : Byte
  x : Byte
  y : Byte
  sp : Byte
  pc : Word
  flags : Flags
deriving DecidableEq, Repr

/-- Inspect registers and flags (R170), after the end: the final ProcessorState (spec/60_exceptions.md R155). -/
def hostInspect (s : State) : Except HostError ProcessorState :=
  match s.status with
  | .created => .error .notLaunched
  | .running => .error .runInProgress
  | .halted => .ok ⟨s.a, s.x, s.y, s.sp, s.pc, s.flags⟩
  | .aborted => .ok ⟨s.a, s.x, s.y, s.sp, s.pc, s.flags⟩

/-- The INIT of a launch: before the first it is what the machine was created with (R170); each launch after an end has a
fresh one (R161, D8, U14; log 17). -/
def launchInit (s : State) (fresh : Init) : Init :=
  match s.status with
  | .created => ⟨s.a, s.x, s.y, s.sp, s.flags⟩
  | .running => fresh
  | .halted => fresh
  | .aborted => fresh

/-- `run(entryAddress)` (R160, R161, R170): the launch, with the memory as created, loaded and poked, or as the last run left
it, and nothing emitted. `fresh` is the INIT of a launch after an end. -/
def hostRun (s : State) (fresh : Init) (entryAddress : Word) : Except HostError State :=
  whenIdle s (.ok (State.launch s.printAddr (launchInit s fresh) s.mem entryAddress))

end Sys2Proof.Machine
end

