-- ==== Sys2Proof/Machine/Trace.lean ====
section
/-! DEFINITION. The transactions a step issues on the memory port and the console port, in order (spec/20_memory.md R44,
spec/40_fetch_and_addressing.md R87, spec/00_scope.md R8). They are a function of the state at the start of the step and no
part of the state (spec/10_state.md R26; log 21). -/

namespace Sys2Proof.Machine

/-- One transaction (R2 e, R6): a byte read, a byte write, or a byte emitted. -/
inductive Transaction where
  | read (addr : Int)
  | write (addr : Int) (value : Byte)
  | console (b : Byte)
deriving DecidableEq, Repr

/-- The reads of the opcode and operand bytes (R44, 1 and 2). -/
def fetchReads (n : Nat) (s : State) : List Int := (List.range (1 + n)).map fun k => (fetchAddr s k : Int)

/-- The reads that resolving a memory mode asks for (R44, 3 and 4): pointer low, pointer high, the eager read. -/
def operandReads (m : MemForm) (s : State) : List Int :=
  (match pointerLoc m s with
    | some loc => [loc, loc + 1]
    | none => []) ++
  (match effectiveAddress m s with
    | .ok ea => [ea]
    | .error _ => [])

/-- The reads that are issued of those asked for: up to and with the first that fails, nothing after it (R87). -/
def issued : List Int → List Int
  | [] => []
  | addr :: rest => if inSpace addr then addr :: issued rest else [addr]

/-- The transactions of the action, after a decode that has succeeded (R44, 5 and 6): STA's write, the print call's byte. -/
def actTransactions (i : Instr) (s : State) : List Transaction :=
  match i.mnemonic, resolve i.form s with
  | .sta, .ok (.memory addr _) => [.write addr.toNat s.a]
  | .jsr, .ok (.memory addr _) => if addr = s.printAddr then [.console s.a] else []
  | _, _ => []

/-- The transactions of one instruction run from `s`, in order (R44, R87). -/
def transactions (i : Instr) (s : State) : List Transaction :=
  (fetchReads i.operandBytes s).map .read ++
  (match i.form with
    | .mem m => (issued (operandReads m s)).map .read
    | .imp | .acc | .imm _ => []) ++
  actTransactions i s

/-- The transactions of one step: an unsupported opcode is read and nothing else (R90); without a run in progress there is
none (R156, R160). -/
def stepTransactions (s : State) : List Transaction :=
  match s.status with
  | .running =>
    match fetch s with
    | some i => transactions i s
    | none => [.read (fetchAddr s 0)]
  | .created | .halted | .aborted => []

end Sys2Proof.Machine
end

