-- ==== Sys2Proof/Safety.lean ====
section
/-! DEFINITION. The terms claims are stated in: what a fault carries, how a run ends, the invariants, what a program can
observe, and the spec's own lists written out once more, away from the definitions they are held against. -/

namespace Sys2Proof.Machine

/-! ### Faults -/

/-- The three kinds of fault with their info, without the state left (spec/60_exceptions.md R140, R144). -/
inductive FaultCause where
  | outOfRange (addr : Int)
  | invalidValue (value : Int)
  | unsupportedInstruction (what : Unsupported)
deriving DecidableEq, Repr

/-- The kind and info of a fault. -/
def Fault.cause : Fault → FaultCause
  | .outOfRange addr _ => .outOfRange addr
  | .invalidValue value _ => .invalidValue value
  | .unsupportedInstruction what _ => .unsupportedInstruction what

/-- The state a fault leaves (R147). -/
def Fault.left : Fault → State
  | .outOfRange _ t => t
  | .invalidValue _ t => t
  | .unsupportedInstruction _ t => t

/-- The kind and info of the fault a result is, if it is one. -/
def faultCause? : Result → Option FaultCause
  | .fault f => some f.cause
  | .next _ => none
  | .refused _ => none

/-- The next state of a result, if it is one. -/
def next? : Result → Option State
  | .next t => some t
  | .fault _ => none
  | .refused _ => none

/-! ### Runs -/

/-- `k` steps from `s`. -/
def runFor (k : Nat) (s : State) : Result := Sys2Proof.core.run k s

/-- The run from `s` completes in `t` (spec/70_reset_and_hazards.md R163): BRK has been reached. -/
def Completes (s t : State) : Prop := ∃ k, runFor k s = .next t ∧ t.status = .halted

/-- The run from `s` aborts with fault `f` (R163). -/
def Aborts (s : State) (f : Fault) : Prop := ∃ k, runFor k s = .fault f

/-! ### Invariants -/

/-- AddressSpace is in its canonical form: what every step keeps, and what reset has. -/
def MemCanonical (s : State) : Prop := Memory.wf s.mem = true

/-- N and Z are not both true (spec/42_alu_flags.md R112). An arbitrary INIT need not have it; every step keeps it. -/
def SignZeroExclusive (s : State) : Prop := ¬(s.flags.n = true ∧ s.flags.z = true)

/-! ### What later execution can depend on -/

/-- Two states differ at most in what no instruction reads: SP and the flags N, C, D, I, B (spec/10_state.md R14, R17 to
R21). -/
def SameReadable (s t : State) : Prop :=
  s.a = t.a ∧ s.x = t.x ∧ s.y = t.y ∧ s.pc = t.pc ∧ s.flags.z = t.flags.z ∧ s.mem = t.mem ∧ s.console = t.console ∧
  s.status = t.status ∧ s.printAddr = t.printAddr

/-! ### Forms of result -/

/-- The result is the OutOfRange at `ea` that decode raises for an instruction with `n` operand bytes (spec/60_exceptions.md
R141, R147): nothing has changed but the PC, which is anything from P to P + 1 + n, and the run has aborted. -/
def DecodeFault (r : Result) (ea : Int) (n : Nat) (s : State) : Prop :=
  ∃ k, k ≤ 1 + n ∧ r = .fault (.outOfRange ea { s with pc := s.pc + BitVec.ofNat 16 k, status := .aborted })

/-- The result is a next state in which the cell `ea` holds A, every other cell is as it was, the PC has gone `len` bytes on
and nothing else has changed (spec/41_load_transfer_store.md R107). -/
def StoresA (r : Result) (ea len : Nat) (s : State) : Prop :=
  ∃ m, r = .next { s with mem := m, pc := s.pc + BitVec.ofNat 16 len } ∧ Memory.read m ea = s.a ∧
    (∀ other, other ≠ ea → Memory.read m other = Memory.read s.mem other) ∧ Memory.wf m = true

/-- The flags after comparing two bytes, as unsigned comparisons (spec/42_alu_flags.md R112). -/
def compared (reg value : Byte) (f : Flags) : Flags :=
  { f with n := decide (reg.toNat < value.toNat), z := decide (reg = value) }

/-! ### What transactions do -/

/-- A read outside AddressSpace, the transaction a decode fails with (R30). -/
def Transaction.fails : Transaction → Bool
  | .read addr => !inSpace addr
  | .write addr _ => !inSpace addr
  | .console _ => false

/-- The bytes emitted by transactions, in order (spec/10_state.md R25). -/
def emitted : List Transaction → List Byte
  | [] => []
  | .console b :: rest => b :: emitted rest
  | .read _ :: rest => emitted rest
  | .write _ _ :: rest => emitted rest

/-- AddressSpace after the writes among transactions, in order (R31). -/
def written (m : Memory) : List Transaction → Memory
  | [] => m
  | .write addr value :: rest => written (Memory.write m addr.toNat value) rest
  | .read _ :: rest => written m rest
  | .console _ :: rest => written m rest

/-- The reads that fetch an instruction with `n` operand bytes, in order (spec/20_memory.md R44, 1 and 2; spec/10_state.md
R16). -/
def fetched (s : State) (n : Nat) : List Transaction :=
  let byte := fun k => Transaction.read ((s.pc.toNat + k) % 65536 : Nat)
  match n with
  | 0 => [byte 0]
  | 1 => [byte 0, byte 1]
  | _ => [byte 0, byte 1, byte 2]

/-- The transactions that follow a decode whose operand is the cell `ea` (R44, 5 and 6): STA's write, the print call's byte,
otherwise none. -/
def acted (i : Instr) (ea : Nat) (s : State) : List Transaction :=
  if i.mnemonic = .sta then [.write ea s.a]
  else if i.mnemonic = .jsr ∧ ea = s.printAddr.toNat then [.console s.a]
  else []

/-! ### The spec's own lists -/

/-- The 61 opcode bytes, from spec/30_encoding.md R53's table by opcode byte. -/
def supportedOpcodes : List Nat :=
  [0x00, 0x18, 0x20, 0x4C, 0x61, 0x65, 0x69, 0x6C, 0x6D, 0x71, 0x75, 0x79, 0x7D, 0x81, 0x85, 0x88] ++
  [0x8A, 0x8D, 0x91, 0x95, 0x98, 0x99, 0x9D, 0xA0, 0xA1, 0xA2, 0xA4, 0xA5, 0xA6, 0xA8, 0xA9, 0xAA] ++
  [0xAC, 0xAD, 0xAE, 0xB1, 0xB4, 0xB5, 0xB6, 0xB9, 0xBC, 0xBD, 0xBE, 0xC0, 0xC1, 0xC4, 0xC5, 0xC8] ++
  [0xC9, 0xCA, 0xCC, 0xCD, 0xD1, 0xD5, 0xD9, 0xDD, 0xE0, 0xE4, 0xE8, 0xEC, 0xF0]

/-- The 16-bit little-endian value stored at `loc` and the cell above it (spec/20_memory.md R32). -/
def wordAt (m : Memory) (loc : Nat) : Nat := (Memory.read m loc).toNat + 256 * (Memory.read m (loc + 1)).toNat

end Sys2Proof.Machine
end

