-- ==== Sys2Proof/Certificates/Slice0/Obligations.lean ====
section
/-! DEFINITION. The statements for the provers. Each docstring names the rules of spec/ it formalises; a statement that rests
on a decision the spec marks as its own (`D<n>` of spec/92_eei_decisions.md) or on a choice of the model says so with its
log entry. Statements about a state hold for every PRINT_ADDR, every register and every flag. -/

open Sys2Proof Sys2Proof.Machine

/-! ### Encoding -/

/-- R50, R51, R53: decoding what the encoder writes gives the instruction back, every operand at every value, and leaves the
bytes after it. The opcode bytes are the spec's decision D1 (log 9). -/
def Obligations.DecodeReadsBackEncode : Prop :=
  ∀ (i : Instr) (rest : List Byte), decode (encode i ++ rest) = .ok (i, rest)

/-- R50, R51, R53: whatever bytes decode to an instruction are that instruction's encoding followed by what was left (D1,
log 9). -/
def Obligations.EncodeRebuildsDecodedBytes : Prop :=
  ∀ (bytes rest : List Byte) (i : Instr), decode bytes = .ok (i, rest) → bytes = encode i ++ rest

/-- R54: a first byte is rejected as an unsupported opcode exactly when it is not one of the 61 (D1, D2; log 9). -/
def Obligations.BytesOutsideTheTableAreRejected : Prop :=
  ∀ (op : Byte) (rest : List Byte),
    decode (op :: rest) = .error (.unsupportedOpcode op) ↔ op.toNat ∉ supportedOpcodes

/-- R53, R57: some of the spec's own listings decode to what they stand for (D1, log 9). -/
def Obligations.SampleWordsDecode : Prop :=
  decodeTableWord 16 0x41A9 = some (.ldaImm 0x41) ∧
  decodeTableWord 16 0x10B5 = some (.ldaZpx 0x10) ∧
  decodeTableWord 16 0x10B6 = some (.ldxZpy 0x10) ∧
  decodeTableWord 24 0x02008D = some (.staAbs 0x0200) ∧
  decodeTableWord 16 0x0569 = some (.adcImm 0x05) ∧
  decodeTableWord 8 0x18 = some .clc ∧
  decodeTableWord 16 0x03E0 = some (.cpxImm 0x03) ∧
  decodeTableWord 16 0x01F0 = some (.beqRel 0x01) ∧
  decodeTableWord 8 0xE8 = some .inx ∧
  decodeTableWord 24 0x03006C = some (.jmpInd 0x0300) ∧
  decodeTableWord 24 0xFFD220 = some (.jsrAbs 0xFFD2) ∧
  decodeTableWord 8 0x00 = some .brk ∧
  decodeTableWord 8 0xEA = none

/-- R55: the length of an instruction is decided by its first byte alone. -/
def Obligations.FirstByteDecidesLength : Prop :=
  ∀ (op : Byte) (bytes bytes' rest rest' : List Byte) (i i' : Instr),
    decode (op :: bytes) = .ok (i, rest) → decode (op :: bytes') = .ok (i', rest') →
    bytes.length + rest'.length = bytes'.length + rest.length ∧ i.operandBytes = i'.operandBytes

/-- R51, R53: every pair of mnemonic and mode of the table, with every value its operand bytes hold, is exactly one
instruction (D2, log 9). -/
def Obligations.RawInstructionsAreTheInstructions : Prop :=
  ∀ r : RawInstr, r.wf = true → ∃ i : Instr, i.raw = r ∧ ∀ j : Instr, j.raw = r → j = i

/-- R51: how operand bytes become `data`: absent, one unsigned byte, or two bytes little-endian; and the signed reading of a
byte. -/
def Obligations.OperandBytesAssembleLittleEndian : Prop :=
  (∀ (op b1 b2 : Byte) (rest rest' : List Byte) (i : Instr), decode (op :: b1 :: b2 :: rest) = .ok (i, rest') →
    (i.operandBytes = 0 → i.form.data = 0) ∧
    (i.operandBytes = 1 → i.form.data = b1.toNat) ∧
    (i.operandBytes = 2 → i.form.data = b1.toNat + 256 * b2.toNat)) ∧
  (∀ d : Byte, (128 ≤ d.toNat → sext8 d = (d.toNat : Int) - 256) ∧ (d.toNat < 128 → sext8 d = d.toNat))

/-! ### The step -/

/-- R70, R89: while a run is in progress, when the bytes fetched at PC decode to an instruction, the step is `exec` of it. -/
def Obligations.StepRunsTheDecodedInstruction : Prop :=
  ∀ (s : State) (i : Instr) (rest : List Byte), s.status = .running → decode (fetchBytes s) = .ok (i, rest) →
    step s = exec i s

/-- R70, R71: when the cells from PC on, taken modulo 65536, hold an instruction's encoding, the step runs that instruction,
whatever the cells after it hold. -/
def Obligations.StepRunsTheBytesAtPc : Prop :=
  ∀ (s : State) (i : Instr), s.status = .running →
    (∀ (k : Nat) (b : Byte), (encode i)[k]? = some b → Memory.read s.mem ((s.pc.toNat + k) % 65536) = b) →
    step s = exec i s

/-- R90: a byte at PC that begins no instruction's encoding faults at lookup with the byte and its address: no operand byte is
read, the PC is not advanced, and no register, flag or cell changes; the run aborts. -/
def Obligations.UnsupportedOpcodeStopsAtLookup : Prop :=
  ∀ s : State, s.status = .running → (∀ i : Instr, (encode i).head? ≠ some (Memory.read s.mem s.pc.toNat)) →
    step s = .fault (.unsupportedInstruction (.opcode (Memory.read s.mem s.pc.toNat) s.pc) { s with status := .aborted }) ∧
    stepTransactions s = [.read s.pc.toNat]

/-- R156: a run that has ended stays as it is; and before the launch nothing executes (R160, R170). That a step without a run in
progress answers the same state is the model's choice (log 6). -/
def Obligations.EndedRunStaysAsItIs : Prop :=
  ∀ (s : State) (k : Nat), s.status ≠ .running → runFor k s = .next s

/-- R132, R163: a step of a run ends it normally exactly when the byte at PC is BRK's opcode, 00, and otherwise the run goes on
(D1, log 9; log 6). -/
def Obligations.OnlyBrkHalts : Prop :=
  ∀ s t : State, s.status = .running → step s = .next t →
    (t.status = .halted ↔ Memory.read s.mem s.pc.toNat = 0) ∧ (t.status = .halted ∨ t.status = .running)

/-- R169: control reaching a cell that reads 0 halts the run there, the PC one past it, nothing else changed (D1, log 9). -/
def Obligations.UnwrittenMemoryHalts : Prop :=
  ∀ s : State, s.status = .running → Memory.read s.mem s.pc.toNat = 0 →
    step s = .next { s with pc := s.pc + 1, status := .halted }

/-- R130, R166: a JMP to its own address is an infinite run: however many steps, the same state (D1, log 9). -/
def Obligations.JumpToItselfNeverEnds : Prop :=
  ∀ (s : State) (k : Nat), s.status = .running → Memory.read s.mem s.pc.toNat = 0x4C →
    (Memory.read s.mem ((s.pc.toNat + 1) % 65536)).toNat + 256 * (Memory.read s.mem ((s.pc.toNat + 2) % 65536)).toNat
      = s.pc.toNat →
    runFor k s = .next s

/-! ### Launch and reset -/

/-- R27, R160, R161: a launch has PC at the entry address, INIT in the registers and flags, MEM0 in AddressSpace, an empty
console output, and a run in progress. -/
def Obligations.LaunchSetsItsParameters : Prop :=
  ∀ (p : Word) (init : Init) (mem0 : Memory) (entryAddress : Word),
    let s := State.launch p init mem0 entryAddress
    s.pc = entryAddress ∧ s.a = init.a ∧ s.x = init.x ∧ s.y = init.y ∧ s.sp = init.sp ∧ s.flags = init.flags ∧
    s.mem = mem0 ∧ s.console = [] ∧ s.status = .running ∧ s.printAddr = p

/-- R24, R30, R161: the model's reset is some launch (its parameters are the model's choice, log 1 to 5, and nothing here
rests on them) with every cell reading 0. -/
def Obligations.ResetIsALaunchOfEmptyMemory : Prop :=
  (∃ (p : Word) (init : Init) (entryAddress : Word), State.reset = State.launch p init [] entryAddress) ∧
  (∀ addr : Int, 0 ≤ addr → addr < 65536 → memRead State.reset.mem addr = .ok 0)

/-- The model's own: AddressSpace is in canonical form at reset. -/
def Obligations.ResetMemoryIsCanonical : Prop := MemCanonical State.reset

/-! ### The memory port -/

/-- R30: a read inside `[0, 65536)` always succeeds and gives the byte last written there, or 0 where nothing was written; a
read outside fails with OutOfRange. -/
def Obligations.ReadGivesTheByteLastWritten : Prop :=
  (∀ (m : Memory) (addr : Int), 0 ≤ addr → addr < 65536 → ∃ v, memRead m addr = .ok v) ∧
  (∀ (m : Memory) (addr : Int), addr < 0 ∨ 65536 ≤ addr → memRead m addr = .error (.outOfRange addr)) ∧
  (∀ addr : Int, 0 ≤ addr → addr < 65536 → memRead [] addr = .ok 0) ∧
  (∀ (m m' : Memory) (addr value : Int), Memory.wf m = true → memWrite m addr value = .ok m' →
    memRead m' addr = .ok (BitVec.ofInt 8 value) ∧ ∀ other, other ≠ addr → memRead m' other = memRead m other)

/-- R31: a write of a good value at a good address succeeds, and in canonical memory the byte then reads there, the form is kept
and every other address reads as before; it fails with OutOfRange for a bad address, with InvalidValue for a bad value, with one
of the two when both are bad (U20, log 15). -/
def Obligations.WriteStoresOrFails : Prop :=
  ∀ (m : Memory) (addr value : Int),
    (0 ≤ addr ∧ addr < 65536 → 0 ≤ value ∧ value < 256 →
      ∃ m', memWrite m addr value = .ok m' ∧
        (Memory.wf m = true →
          Memory.wf m' = true ∧ memRead m' addr = .ok (BitVec.ofInt 8 value) ∧
            ∀ other, other ≠ addr → memRead m' other = memRead m other)) ∧
    (0 ≤ addr ∧ addr < 65536 → value < 0 ∨ 256 ≤ value → memWrite m addr value = .error (.invalidValue value)) ∧
    (addr < 0 ∨ 65536 ≤ addr → 0 ≤ value ∧ value < 256 → memWrite m addr value = .error (.outOfRange addr)) ∧
    (addr < 0 ∨ 65536 ≤ addr → value < 0 ∨ 256 ≤ value →
      memWrite m addr value = .error (.invalidValue value) ∨ memWrite m addr value = .error (.outOfRange addr))

/-- R24, and the model's canonical form: two canonical memories that read the same at every address are the same data. -/
def Obligations.CanonicalMemoriesAreEqual : Prop :=
  ∀ m m' : Memory, Memory.wf m = true → Memory.wf m' = true →
    (∀ addr, Memory.read m addr = Memory.read m' addr) → m = m'

/-! ### Invariants and whole-machine rules -/

/-- The model's own form of R24: from every state in canonical form, whatever a step answers leaves AddressSpace canonical. -/
def Obligations.StepKeepsMemoryCanonical : Prop :=
  ∀ s : State, MemCanonical s →
    (∀ t, step s = .next t → MemCanonical t) ∧ (∀ f, step s = .fault f → MemCanonical f.left)

/-- R112: no step makes N and Z both true. -/
def Obligations.StepKeepsSignZeroExclusive : Prop :=
  ∀ s t : State, SignZeroExclusive s → step s = .next t → SignZeroExclusive t

/-- R147: a fault changes nothing but the PC (and ends the run): the PC is P for an unsupported opcode, P + 3 for a JSR to
another address, and anything from P to P + 1 + n for an OutOfRange in decode (D9, log 8; log 7). -/
def Obligations.FaultsArePrecise : Prop :=
  ∀ (s : State) (f : Fault), step s = .fault f →
    f.left = { s with pc := f.left.pc, status := .aborted } ∧
    (∀ op at', f.cause = .unsupportedInstruction (.opcode op at') → at' = s.pc ∧ f.left.pc = s.pc) ∧
    (∀ target, f.cause = .unsupportedInstruction (.jsrTarget target) →
      target ≠ s.printAddr ∧ f.left.pc = s.pc + 3) ∧
    (∀ addr, f.cause = .outOfRange addr →
      (addr < 0 ∨ 65536 ≤ addr) ∧
      ∃ i k, fetch s = some i ∧ k ≤ 1 + i.operandBytes ∧ f.left.pc = s.pc + BitVec.ofNat 16 k)

/-- R141: OutOfRange comes from the modes Absolute,X, Absolute,Y, (Indirect),Y, Relative and Indirect alone; above the space
from all of them, below it from Relative only, and from Indirect only at 65536 (D5, D7; log 12, log 13). -/
def Obligations.OutOfRangeOnlyFromFiveModes : Prop :=
  ∀ (i : Instr) (s left : State) (addr : Int), exec i s = .fault (.outOfRange addr left) →
    (addr < 0 ∧ i.mode = .rel) ∨
    (65536 ≤ addr ∧ (i.mode = .abx ∨ i.mode = .aby ∨ i.mode = .izy ∨ i.mode = .rel)) ∨
    (addr = 65536 ∧ i.mode = .ind)

/-- R35, R142: no step raises InvalidValue. -/
def Obligations.InvalidValueIsNeverRaised : Prop :=
  ∀ (s left : State) (value : Int), step s ≠ .fault (.invalidValue value left)

/-- R7: a step goes on, halts or faults; the model refuses nothing. -/
def Obligations.NoStepIsRefused : Prop :=
  ∀ (s : State) (r : Refusal), step s ≠ .refused r

/-- R14, R21, R4: SP, D, I, B and PRINT_ADDR keep their launch values for the whole run, however it goes. -/
def Obligations.UnwrittenStateKeepsItsLaunchValue : Prop :=
  ∀ (k : Nat) (s t : State), (runFor k s = .next t ∨ ∃ f, runFor k s = .fault f ∧ f.left = t) →
    t.sp = s.sp ∧ t.flags.d = s.flags.d ∧ t.flags.i = s.flags.i ∧ t.flags.b = s.flags.b ∧ t.printAddr = s.printAddr

/-- R14, R17 to R21: SP and the flags N, C, D, I, B are read by nothing: two states that differ only there step to states
that differ only there, or fault for the same cause. -/
def Obligations.UnreadStateHasNoInfluence : Prop :=
  ∀ s s' : State, SameReadable s s' →
    (∀ t, step s = .next t → ∃ t', step s' = .next t' ∧ SameReadable t t') ∧
    (∀ f, step s = .fault f → ∃ f', step s' = .fault f' ∧ f'.cause = f.cause)

/-- R20: C is its launch value until a CLC and false after it: over any run it never becomes true. -/
def Obligations.CarryIsNeverSet : Prop :=
  ∀ (k : Nat) (s t : State), runFor k s = .next t → t.flags.c = true → s.flags.c = true

/-- R25, R154: the console output only grows; a step emits at most one byte, the value of A, and does so exactly when it runs
a JSR to PRINT_ADDR. -/
def Obligations.ConsoleGrowsByThePrintCallOnly : Prop :=
  ∀ (s t : State) (i : Instr), exec i s = .next t →
    (i = .jsrAbs s.printAddr → t.console = s.console ++ [s.a]) ∧
    (i ≠ .jsrAbs s.printAddr → t.console = s.console)

/-- R44, R87: the transactions of an instruction account for its result: it faults with OutOfRange exactly where a read
fails, and that read is the last; on a next state nothing has failed, the writes are AddressSpace's change and the bytes
emitted are the console's. That STA, JMP, JSR and BEQ read eagerly is D5 (log 12), that no address sum wraps D7 (log 13). -/
def Obligations.TransactionsAccountForTheResult : Prop :=
  ∀ (i : Instr) (s : State),
    (∀ addr left, exec i s = .fault (.outOfRange addr left) →
      ∃ before, transactions i s = before ++ [.read addr] ∧ inSpace addr = false ∧
        before.all (fun x => !x.fails) = true ∧ written s.mem before = s.mem ∧ emitted before = []) ∧
    (∀ t, exec i s = .next t →
      (transactions i s).all (fun x => !x.fails) = true ∧ t.mem = written s.mem (transactions i s) ∧
        t.console = s.console ++ emitted (transactions i s))

/-- R44, R87: the transactions of every instruction of a mode, in order: the fetch reads, the pointer reads, the eager read (made
whatever the mnemonic: D5, log 12), and where decode succeeds what the instruction does at the address. A sum is not wrapped, so
the last read may lie outside AddressSpace, and then nothing follows it (D7, log 13); a Relative operand is added to
(P + 1) mod 65536 (R82, the spec's decision D4, log 10); of two bytes the lower address is first (D10, log 14). -/
def Obligations.ModesIssueTheListedTransactions : Prop :=
  ∀ (i : Instr) (s : State) (d : Byte) (w : Word),
    (i.form = .imp → transactions i s = fetched s 0) ∧
    (i.form = .imm d → transactions i s = fetched s 1) ∧
    (i.form = .mem (.abs w) → transactions i s = fetched s 2 ++ [.read w.toNat] ++ acted i w.toNat s) ∧
    (let ea := w.toNat + s.x.toNat;
      i.form = .mem (.abx w) → transactions i s = fetched s 2 ++ [.read ea] ++ if ea < 65536 then acted i ea s else []) ∧
    (let ea := w.toNat + s.y.toNat;
      i.form = .mem (.aby w) → transactions i s = fetched s 2 ++ [.read ea] ++ if ea < 65536 then acted i ea s else []) ∧
    (i.form = .mem (.zp d) → transactions i s = fetched s 1 ++ [.read d.toNat] ++ acted i d.toNat s) ∧
    (let ea := d.toNat + s.x.toNat;
      i.form = .mem (.zpx d) → transactions i s = fetched s 1 ++ [.read ea] ++ acted i ea s) ∧
    (let ea := d.toNat + s.y.toNat;
      i.form = .mem (.zpy d) → transactions i s = fetched s 1 ++ [.read ea] ++ acted i ea s) ∧
    (i.form = .mem (.rel d) →
      transactions i s = fetched s 1 ++ [.read (((s.pc.toNat + 1) % 65536 : Nat) + d.toInt)]) ∧
    (i.form = .mem (.ind w) →
      transactions i s = fetched s 2 ++ [.read w.toNat, .read (w.toNat + 1 : Nat)] ++
        if w.toNat < 65535 then [.read (wordAt s.mem w.toNat)] else []) ∧
    (let loc := d.toNat + s.x.toNat;
      i.form = .mem (.izx d) →
        transactions i s = fetched s 1 ++ [.read loc, .read (loc + 1 : Nat), .read (wordAt s.mem loc)] ++
          acted i (wordAt s.mem loc) s) ∧
    (let ea := wordAt s.mem d.toNat + s.y.toNat;
      i.form = .mem (.izy d) →
        transactions i s = fetched s 1 ++ [.read d.toNat, .read (d.toNat + 1 : Nat), .read ea] ++
          if ea < 65536 then acted i ea s else [])

/-! ### Operand resolution -/

/-- R74: Accumulator mode has no operand byte and gives the accumulator, no address, whatever memory holds. That no opcode selects
it is the spec's derived rule R56 and rests on its decisions D2 and D16 (log 9, log 19). -/
def Obligations.AccumulatorModeIsUnused : Prop :=
  Mode.operandBytes .acc = 0 ∧
  (∀ (s : State) (m : Memory), resolve .acc { s with mem := m } = .ok (.accumulator s.a)) ∧
  (∀ (bytes rest : List Byte) (i : Instr), decode bytes = .ok (i, rest) → i.mode ≠ .acc)

/-- R75: Immediate mode gives the operand byte, with no memory access beyond the two bytes fetched, and the PC two bytes on. -/
def Obligations.ImmediateGivesTheOperandByte : Prop :=
  ∀ (i : Instr) (d : Byte) (s : State), i.form = .imm d →
    resolve i.form s = .ok (.immediate d) ∧
    transactions i s = [.read s.pc.toNat, .read ((s.pc.toNat + 1) % 65536 : Nat)] ∧
    (encode i).length = 2 ∧ ∃ t, exec i s = .next t ∧ t.pc = s.pc + 2

/-- R76, R79: Absolute (two operand bytes) and Zero-page (one) address `data` itself and give the byte there; no instruction in
either mode raises OutOfRange. -/
def Obligations.AbsoluteAndZeroPageAddressTheirData : Prop :=
  Mode.operandBytes .abs = 2 ∧ Mode.operandBytes .zp = 1 ∧
  ∀ (s : State) (w : Word) (d : Byte),
    resolve (.mem (.abs w)) s = .ok (.memory w (Memory.read s.mem w.toNat)) ∧
    resolve (.mem (.zp d)) s = .ok (.memory (BitVec.ofNat 16 d.toNat) (Memory.read s.mem d.toNat)) ∧
    (∀ (i : Instr) (addr : Int) (left : State), i.form = .mem (.abs w) ∨ i.form = .mem (.zp d) →
      exec i s ≠ .fault (.outOfRange addr left))

/-- R77: Absolute,X (two operand bytes) addresses `data + X`, not wrapped at 64 Ki, and gives the byte there; from 65536 on
the access raises OutOfRange with that address, in every instruction of the mode. -/
def Obligations.AbsoluteXDoesNotWrap : Prop :=
  Mode.operandBytes .abx = 2 ∧
  ∀ (s : State) (w : Word),
    (w.toNat + s.x.toNat < 65536 →
      resolve (.mem (.abx w)) s =
        .ok (.memory (BitVec.ofNat 16 (w.toNat + s.x.toNat)) (Memory.read s.mem (w.toNat + s.x.toNat)))) ∧
    (65536 ≤ w.toNat + s.x.toNat →
      resolve (.mem (.abx w)) s = .error (.outOfRange (w.toNat + s.x.toNat : Nat)) ∧
      ∀ i : Instr, i.form = .mem (.abx w) →
        ∃ left, exec i s = .fault (.outOfRange (w.toNat + s.x.toNat : Nat) left))

/-- R78, R80, R81, R84, R85: the other indexed modes. That no sum wraps is the spec's decision D7 (log 13). -/
def Obligations.IndexedModesAddressTheirSums : Prop :=
  ∀ (s : State) (w : Word) (d : Byte),
    (w.toNat + s.y.toNat < 65536 →
      resolve (.mem (.aby w)) s =
        .ok (.memory (BitVec.ofNat 16 (w.toNat + s.y.toNat)) (Memory.read s.mem (w.toNat + s.y.toNat)))) ∧
    (65536 ≤ w.toNat + s.y.toNat →
      resolve (.mem (.aby w)) s = .error (.outOfRange (w.toNat + s.y.toNat : Nat))) ∧
    resolve (.mem (.zpx d)) s =
      .ok (.memory (BitVec.ofNat 16 (d.toNat + s.x.toNat)) (Memory.read s.mem (d.toNat + s.x.toNat))) ∧
    resolve (.mem (.zpy d)) s =
      .ok (.memory (BitVec.ofNat 16 (d.toNat + s.y.toNat)) (Memory.read s.mem (d.toNat + s.y.toNat))) ∧
    (let ea := wordAt s.mem (d.toNat + s.x.toNat);
      resolve (.mem (.izx d)) s = .ok (.memory (BitVec.ofNat 16 ea) (Memory.read s.mem ea))) ∧
    (let ea := wordAt s.mem d.toNat + s.y.toNat;
      (ea < 65536 → resolve (.mem (.izy d)) s = .ok (.memory (BitVec.ofNat 16 ea) (Memory.read s.mem ea))) ∧
      (65536 ≤ ea → resolve (.mem (.izy d)) s = .error (.outOfRange (ea : Nat))))

/-! ### Results: load, transfer, store -/

/-- R100: LDA in each of its modes loads A and moves the PC, and nothing else; out of range it faults in decode with A
unchanged. That no address sum wraps is D7 (log 13); the PC a fault leaves is open (D9, log 8). -/
def Obligations.LdaLoadsTheAccumulator : Prop :=
  ∀ (s : State) (d : Byte) (w : Word),
    exec (.ldaImm d) s = .next { s with a := d, pc := s.pc + 2 } ∧
    exec (.ldaZp d) s = .next { s with a := Memory.read s.mem d.toNat, pc := s.pc + 2 } ∧
    exec (.ldaZpx d) s = .next { s with a := Memory.read s.mem (d.toNat + s.x.toNat), pc := s.pc + 2 } ∧
    exec (.ldaAbs w) s = .next { s with a := Memory.read s.mem w.toNat, pc := s.pc + 3 } ∧
    (let ea := w.toNat + s.x.toNat;
      (ea < 65536 → exec (.ldaAbx w) s = .next { s with a := Memory.read s.mem ea, pc := s.pc + 3 }) ∧
      (65536 ≤ ea → DecodeFault (exec (.ldaAbx w) s) ea 2 s)) ∧
    (let ea := w.toNat + s.y.toNat;
      (ea < 65536 → exec (.ldaAby w) s = .next { s with a := Memory.read s.mem ea, pc := s.pc + 3 }) ∧
      (65536 ≤ ea → DecodeFault (exec (.ldaAby w) s) ea 2 s)) ∧
    (let ea := wordAt s.mem (d.toNat + s.x.toNat);
      exec (.ldaIzx d) s = .next { s with a := Memory.read s.mem ea, pc := s.pc + 2 }) ∧
    (let ea := wordAt s.mem d.toNat + s.y.toNat;
      (ea < 65536 → exec (.ldaIzy d) s = .next { s with a := Memory.read s.mem ea, pc := s.pc + 2 }) ∧
      (65536 ≤ ea → DecodeFault (exec (.ldaIzy d) s) ea 1 s))

/-- R101, R102: LDX and LDY in each of their modes. That no address sum wraps is D7 (log 13); the PC a fault leaves is open
(D9, log 8). -/
def Obligations.LdxAndLdyLoadTheirRegister : Prop :=
  ∀ (s : State) (d : Byte) (w : Word),
    exec (.ldxImm d) s = .next { s with x := d, pc := s.pc + 2 } ∧
    exec (.ldxZp d) s = .next { s with x := Memory.read s.mem d.toNat, pc := s.pc + 2 } ∧
    exec (.ldxZpy d) s = .next { s with x := Memory.read s.mem (d.toNat + s.y.toNat), pc := s.pc + 2 } ∧
    exec (.ldxAbs w) s = .next { s with x := Memory.read s.mem w.toNat, pc := s.pc + 3 } ∧
    (let ea := w.toNat + s.y.toNat;
      (ea < 65536 → exec (.ldxAby w) s = .next { s with x := Memory.read s.mem ea, pc := s.pc + 3 }) ∧
      (65536 ≤ ea → DecodeFault (exec (.ldxAby w) s) ea 2 s)) ∧
    exec (.ldyImm d) s = .next { s with y := d, pc := s.pc + 2 } ∧
    exec (.ldyZp d) s = .next { s with y := Memory.read s.mem d.toNat, pc := s.pc + 2 } ∧
    exec (.ldyZpx d) s = .next { s with y := Memory.read s.mem (d.toNat + s.x.toNat), pc := s.pc + 2 } ∧
    exec (.ldyAbs w) s = .next { s with y := Memory.read s.mem w.toNat, pc := s.pc + 3 } ∧
    (let ea := w.toNat + s.x.toNat;
      (ea < 65536 → exec (.ldyAbx w) s = .next { s with y := Memory.read s.mem ea, pc := s.pc + 3 }) ∧
      (65536 ≤ ea → DecodeFault (exec (.ldyAbx w) s) ea 2 s))

/-- R103 to R106: the transfers copy a register, write no flag, and touch no memory beyond the opcode fetch. -/
def Obligations.TransfersCopyARegister : Prop :=
  ∀ s : State,
    exec .tax s = .next { s with x := s.a, pc := s.pc + 1 } ∧
    exec .txa s = .next { s with a := s.x, pc := s.pc + 1 } ∧
    exec .tay s = .next { s with y := s.a, pc := s.pc + 1 } ∧
    exec .tya s = .next { s with a := s.y, pc := s.pc + 1 } ∧
    (∀ i ∈ [Instr.tax, Instr.txa, Instr.tay, Instr.tya], transactions i s = [.read s.pc.toNat])

/-- R107: STA in each of its modes stores A in one cell, whatever the cell held, and changes nothing else but the PC; out of
range it faults in decode, before the write (D5, log 12). That no address sum wraps is D7 (log 13); the PC a fault leaves is open
(D9, log 8). -/
def Obligations.StaStoresTheAccumulator : Prop :=
  ∀ (s : State) (d : Byte) (w : Word), MemCanonical s →
    StoresA (exec (.staZp d) s) d.toNat 2 s ∧
    StoresA (exec (.staZpx d) s) (d.toNat + s.x.toNat) 2 s ∧
    StoresA (exec (.staAbs w) s) w.toNat 3 s ∧
    (let ea := w.toNat + s.x.toNat;
      (ea < 65536 → StoresA (exec (.staAbx w) s) ea 3 s) ∧ (65536 ≤ ea → DecodeFault (exec (.staAbx w) s) ea 2 s)) ∧
    (let ea := w.toNat + s.y.toNat;
      (ea < 65536 → StoresA (exec (.staAby w) s) ea 3 s) ∧ (65536 ≤ ea → DecodeFault (exec (.staAby w) s) ea 2 s)) ∧
    StoresA (exec (.staIzx d) s) (wordAt s.mem (d.toNat + s.x.toNat)) 2 s ∧
    (let ea := wordAt s.mem d.toNat + s.y.toNat;
      (ea < 65536 → StoresA (exec (.staIzy d) s) ea 2 s) ∧ (65536 ≤ ea → DecodeFault (exec (.staIzy d) s) ea 1 s))

/-! ### Results: ALU and flags -/

/-- R110: CLC clears C and changes nothing else but the PC. -/
def Obligations.ClcClearsCarryOnly : Prop :=
  ∀ s : State, exec .clc s = .next { s with flags := { s.flags with c := false }, pc := s.pc + 1 }

/-- R111: ADC in each of its modes adds without carry in or out and writes no flag. Keeping the low 8 bits of a sum above 255
is the spec's decision D6 (log 11); that no address sum wraps is D7 (log 13); the PC a fault leaves is open (D9, log 8). -/
def Obligations.AdcAddsWithoutCarry : Prop :=
  ∀ (s : State) (d : Byte) (w : Word),
    let sum := fun v : Byte => BitVec.ofNat 8 ((s.a.toNat + v.toNat) % 256)
    exec (.adcImm d) s = .next { s with a := sum d, pc := s.pc + 2 } ∧
    exec (.adcZp d) s = .next { s with a := sum (Memory.read s.mem d.toNat), pc := s.pc + 2 } ∧
    exec (.adcZpx d) s = .next { s with a := sum (Memory.read s.mem (d.toNat + s.x.toNat)), pc := s.pc + 2 } ∧
    exec (.adcAbs w) s = .next { s with a := sum (Memory.read s.mem w.toNat), pc := s.pc + 3 } ∧
    (let ea := w.toNat + s.x.toNat;
      (ea < 65536 → exec (.adcAbx w) s = .next { s with a := sum (Memory.read s.mem ea), pc := s.pc + 3 }) ∧
      (65536 ≤ ea → DecodeFault (exec (.adcAbx w) s) ea 2 s)) ∧
    (let ea := w.toNat + s.y.toNat;
      (ea < 65536 → exec (.adcAby w) s = .next { s with a := sum (Memory.read s.mem ea), pc := s.pc + 3 }) ∧
      (65536 ≤ ea → DecodeFault (exec (.adcAby w) s) ea 2 s)) ∧
    (let ea := wordAt s.mem (d.toNat + s.x.toNat);
      exec (.adcIzx d) s = .next { s with a := sum (Memory.read s.mem ea), pc := s.pc + 2 }) ∧
    (let ea := wordAt s.mem d.toNat + s.y.toNat;
      (ea < 65536 → exec (.adcIzy d) s = .next { s with a := sum (Memory.read s.mem ea), pc := s.pc + 2 }) ∧
      (65536 ≤ ea → DecodeFault (exec (.adcIzy d) s) ea 1 s))

/-- R113: CMP in each of its modes compares A and writes N and Z only; out of range it faults with no flag changed.
That no address sum wraps is D7 (log 13); the PC a fault leaves is open (D9, log 8). -/
def Obligations.CmpComparesTheAccumulator : Prop :=
  ∀ (s : State) (d : Byte) (w : Word),
    let flags := fun v : Byte => compared s.a v s.flags
    exec (.cmpImm d) s = .next { s with flags := flags d, pc := s.pc + 2 } ∧
    exec (.cmpZp d) s = .next { s with flags := flags (Memory.read s.mem d.toNat), pc := s.pc + 2 } ∧
    exec (.cmpZpx d) s = .next { s with flags := flags (Memory.read s.mem (d.toNat + s.x.toNat)), pc := s.pc + 2 } ∧
    exec (.cmpAbs w) s = .next { s with flags := flags (Memory.read s.mem w.toNat), pc := s.pc + 3 } ∧
    (let ea := w.toNat + s.x.toNat;
      (ea < 65536 → exec (.cmpAbx w) s = .next { s with flags := flags (Memory.read s.mem ea), pc := s.pc + 3 }) ∧
      (65536 ≤ ea → DecodeFault (exec (.cmpAbx w) s) ea 2 s)) ∧
    (let ea := w.toNat + s.y.toNat;
      (ea < 65536 → exec (.cmpAby w) s = .next { s with flags := flags (Memory.read s.mem ea), pc := s.pc + 3 }) ∧
      (65536 ≤ ea → DecodeFault (exec (.cmpAby w) s) ea 2 s)) ∧
    (let ea := wordAt s.mem (d.toNat + s.x.toNat);
      exec (.cmpIzx d) s = .next { s with flags := flags (Memory.read s.mem ea), pc := s.pc + 2 }) ∧
    (let ea := wordAt s.mem d.toNat + s.y.toNat;
      (ea < 65536 → exec (.cmpIzy d) s = .next { s with flags := flags (Memory.read s.mem ea), pc := s.pc + 2 }) ∧
      (65536 ≤ ea → DecodeFault (exec (.cmpIzy d) s) ea 1 s))

/-- R114, R115: CPX and CPY in each of their modes, which cannot fault. -/
def Obligations.CpxAndCpyCompareTheirRegister : Prop :=
  ∀ (s : State) (d : Byte) (w : Word),
    exec (.cpxImm d) s = .next { s with flags := compared s.x d s.flags, pc := s.pc + 2 } ∧
    exec (.cpxZp d) s = .next { s with flags := compared s.x (Memory.read s.mem d.toNat) s.flags, pc := s.pc + 2 } ∧
    exec (.cpxAbs w) s = .next { s with flags := compared s.x (Memory.read s.mem w.toNat) s.flags, pc := s.pc + 3 } ∧
    exec (.cpyImm d) s = .next { s with flags := compared s.y d s.flags, pc := s.pc + 2 } ∧
    exec (.cpyZp d) s = .next { s with flags := compared s.y (Memory.read s.mem d.toNat) s.flags, pc := s.pc + 2 } ∧
    exec (.cpyAbs w) s = .next { s with flags := compared s.y (Memory.read s.mem w.toNat) s.flags, pc := s.pc + 3 }

/-- R112: a compare sets N exactly when the register is less, Z exactly when it is equal, as unsigned numbers; never both; C
and every other flag keep their values, and no register or cell changes. N is not bit 7 of the difference. -/
def Obligations.CompareSetsSignAndZeroOfTheDifference : Prop :=
  (∀ (reg value : Byte) (f : Flags),
    ((compareFlags reg value f).n = true ↔ reg.toNat < value.toNat) ∧
    ((compareFlags reg value f).z = true ↔ reg.toNat = value.toNat) ∧
    ¬((compareFlags reg value f).n = true ∧ (compareFlags reg value f).z = true) ∧
    (compareFlags reg value f).c = f.c ∧ (compareFlags reg value f).d = f.d ∧
    (compareFlags reg value f).i = f.i ∧ (compareFlags reg value f).b = f.b) ∧
  (∀ f : Flags, (compareFlags 0x80 0x00 f).n = false ∧ (compareFlags 0x00 0x01 f).n = true) ∧
  (∀ (i : Instr) (s t : State), i.mnemonic = .cmp ∨ i.mnemonic = .cpx ∨ i.mnemonic = .cpy → exec i s = .next t →
    ∃ value, (resolve i.form s = .ok (.immediate value) ∨ ∃ addr, resolve i.form s = .ok (.memory addr value)) ∧
      t = { s with pc := t.pc,
                   flags := compareFlags (if i.mnemonic = .cmp then s.a else if i.mnemonic = .cpx then s.x else s.y)
                     value s.flags })

/-! ### Results: branch, counts, jump, call, halt -/

/-- R120, R82: BEQ resolves `base + sext_8(d)` with base P + 1 (the spec's decision D4, log 10); it faults in decode when that
lies outside AddressSpace, taken or not (D5, log 12); taken, it goes to one past it, modulo 65536 (D6, log 11); not taken, it
goes to the next instruction. The resolved address is not wrapped (D7, log 13); the PC a fault leaves is open (D9, log 8). -/
def Obligations.BeqBranchesOnZero : Prop :=
  ∀ (s : State) (d : Byte),
    let addr : Int := ((s.pc.toNat + 1) % 65536 : Nat) + d.toInt
    (0 ≤ addr ∧ addr < 65536 → s.flags.z = true →
      exec (.beqRel d) s = .next { s with pc := BitVec.ofInt 16 (addr + 1) }) ∧
    (0 ≤ addr ∧ addr < 65536 → s.flags.z = false → exec (.beqRel d) s = .next { s with pc := s.pc + 2 }) ∧
    (addr < 0 ∨ 65536 ≤ addr → DecodeFault (exec (.beqRel d) s) addr 1 s)

/-- R125 to R128, R15: the counts wrap modulo 256 and write no flag. -/
def Obligations.IndexCountsWrap : Prop :=
  ∀ s : State,
    exec .inx s = .next { s with x := BitVec.ofNat 8 ((s.x.toNat + 1) % 256), pc := s.pc + 1 } ∧
    exec .dex s = .next { s with x := BitVec.ofInt 8 (((s.x.toNat : Int) - 1) % 256), pc := s.pc + 1 } ∧
    exec .iny s = .next { s with y := BitVec.ofNat 8 ((s.y.toNat + 1) % 256), pc := s.pc + 1 } ∧
    exec .dey s = .next { s with y := BitVec.ofInt 8 (((s.y.toNat : Int) - 1) % 256), pc := s.pc + 1 }

/-- R130, R83: JMP goes to its address, or to the pointer stored there; a pointer at 65535 faults in decode, its high byte's
address not wrapping (D7, log 13); the PC that leaves is open (D9, log 8). -/
def Obligations.JmpGoesToItsAddress : Prop :=
  ∀ (s : State) (w : Word),
    exec (.jmpAbs w) s = .next { s with pc := w } ∧
    (w.toNat < 65535 → exec (.jmpInd w) s = .next { s with pc := BitVec.ofNat 16 (wordAt s.mem w.toNat) }) ∧
    (w.toNat = 65535 → DecodeFault (exec (.jmpInd w) s) 65536 2 s)

/-- R131: JSR to PRINT_ADDR emits A and goes on after the JSR; JSR to any other address is an unsupported instruction, raised
after decode with the PC at P + 3 and nothing else changed. -/
def Obligations.JsrCallsThePrintAddressOnly : Prop :=
  ∀ (s : State) (w : Word),
    exec (.jsrAbs s.printAddr) s = .next { s with console := s.console ++ [s.a], pc := s.pc + 3 } ∧
    (w ≠ s.printAddr →
      exec (.jsrAbs w) s =
        .fault (.unsupportedInstruction (.jsrTarget w) { s with pc := s.pc + 3, status := .aborted }))

/-- R132: BRK ends the run; the PC is one past it; no flag, register, cell or output changes. The halted condition as a next
state is the model's form (log 6). -/
def Obligations.BrkHaltsTheRun : Prop :=
  ∀ s : State, exec .brk s = .next { s with pc := s.pc + 1, status := .halted }

/-! ### Frames -/

/-- R10's table and R11 to R14: which instructions write A, X and Y, and that none writes SP; R25, R131, R154: only JSR emits;
R132, R163: only BRK ends a run normally (the run's condition as a field is the model's form, log 6); R4: PRINT_ADDR is a
parameter, which no instruction changes (log 1). -/
def Obligations.RegistersChangeOnlyWhereListed : Prop :=
  ∀ (i : Instr) (s t : State), exec i s = .next t →
    (i.mnemonic ∉ [.lda, .txa, .tya, .adc] → t.a = s.a) ∧
    (i.mnemonic ∉ [.ldx, .tax, .inx, .dex] → t.x = s.x) ∧
    (i.mnemonic ∉ [.ldy, .tay, .iny, .dey] → t.y = s.y) ∧
    (i.mnemonic ≠ .jsr → t.console = s.console) ∧
    (i.mnemonic ≠ .brk → t.status = s.status) ∧
    t.sp = s.sp ∧ t.printAddr = s.printAddr

/-- R17's table: N and Z are written by the compares alone, C by CLC alone, D, I and B by nothing. -/
def Obligations.FlagsChangeOnlyWhereListed : Prop :=
  ∀ (i : Instr) (s t : State), exec i s = .next t →
    (i.mnemonic ∉ [.cmp, .cpx, .cpy] → t.flags.n = s.flags.n ∧ t.flags.z = s.flags.z) ∧
    (i.mnemonic ≠ .clc → t.flags.c = s.flags.c) ∧
    t.flags.d = s.flags.d ∧ t.flags.i = s.flags.i ∧ t.flags.b = s.flags.b

/-- R36, R44, R107: every instruction but STA leaves all of AddressSpace as it was; STA leaves every cell but the one its
operand resolves to. -/
def Obligations.OnlyTheStoredCellChanges : Prop :=
  ∀ (i : Instr) (s t : State), exec i s = .next t →
    (i.mnemonic ≠ .sta → t.mem = s.mem) ∧
    (i.mnemonic = .sta → ∃ addr value, resolve i.form s = .ok (.memory addr value) ∧
      ∀ other, other ≠ addr.toNat → Memory.read t.mem other = Memory.read s.mem other)

/-- R16, R72: the PC ends one past the instruction's last byte, modulo 65536, except after BEQ and JMP. -/
def Obligations.PcAdvancesPastTheInstruction : Prop :=
  ∀ (i : Instr) (s t : State), exec i s = .next t → i.mnemonic ≠ .beq → i.mnemonic ≠ .jmp →
    t.pc.toNat = (s.pc.toNat + 1 + i.operandBytes) % 65536

/-! ### Self-modifying code, assembly, host -/

/-- R42: a store to a cell the next fetch reads is what that fetch reads. -/
def Obligations.StoreIsSeenByTheNextFetch : Prop :=
  ∀ (i : Instr) (s t : State) (addr : Word) (old : Byte) (k : Nat), MemCanonical s → i.mnemonic = .sta →
    resolve i.form s = .ok (.memory addr old) → exec i s = .next t → fetchAddr t k = addr.toNat → fetchByte t k = s.a

/-- R57, R120: the byte an assembler emits for a branch to `target` takes the branch there. The addresses left out are those
whose resolved address lies outside AddressSpace (R82); the base is D4 (log 10). -/
def Obligations.AssembledBranchReachesItsTarget : Prop :=
  ∀ (s : State) (target : Word) (d : Byte), branchOperand s.pc target = some d → s.flags.z = true →
    s.pc.toNat < 65535 → 1 ≤ target.toNat → exec (.beqRel d) s = .next { s with pc := target }

/-- R170: the host has no move during a run (that a move at the wrong time is an error: log 26). Where none is in progress, in a
machine created and not launched as after an end, it peeks and pokes through the port, whose errors it gets (both bad: U20,
log 15), and loads a file; R170 puts a load before the launch, and that a file loads after an end too is the model's choice
(log 18). After an end it may inspect ProcessorState, and a new run is a fresh launch with memory as left and nothing emitted
(R161; U14, log 17). -/
def Obligations.HostMovesNeedNoRunInProgress : Prop :=
  (∀ (s : State) (addr value : Int) (file : List Byte) (init : Init) (entryAddress : Word), s.status = .running →
    hostPeek s addr = .error .runInProgress ∧ hostPoke s addr value = .error .runInProgress ∧
    hostLoad s file = .error .runInProgress ∧ hostRun s init entryAddress = .error .runInProgress ∧
    hostAttachConsole s = .error .runInProgress ∧ hostInspect s = .error .runInProgress) ∧
  (∀ (s : State) (addr value : Int), s.status ≠ .running →
    (0 ≤ addr ∧ addr < 65536 → hostPeek s addr = .ok (Memory.read s.mem addr.toNat)) ∧
    (addr < 0 ∨ 65536 ≤ addr → hostPeek s addr = .error (.port (.outOfRange addr))) ∧
    (0 ≤ addr ∧ addr < 65536 → 0 ≤ value ∧ value < 256 →
      ∃ m, hostPoke s addr value = .ok { s with mem := m } ∧
        (MemCanonical s → Memory.wf m = true ∧ Memory.read m addr.toNat = BitVec.ofInt 8 value ∧
          ∀ other, other ≠ addr.toNat → Memory.read m other = Memory.read s.mem other)) ∧
    (0 ≤ addr ∧ addr < 65536 → value < 0 ∨ 256 ≤ value → hostPoke s addr value = .error (.port (.invalidValue value))) ∧
    (addr < 0 ∨ 65536 ≤ addr → 0 ≤ value ∧ value < 256 → hostPoke s addr value = .error (.port (.outOfRange addr))) ∧
    (addr < 0 ∨ 65536 ≤ addr → value < 0 ∨ 256 ≤ value →
      hostPoke s addr value = .error (.port (.invalidValue value)) ∨
      hostPoke s addr value = .error (.port (.outOfRange addr)))) ∧
  (∀ (s : State) (file : List Byte), s.status ≠ .running →
    (∀ m, loadFile s.mem file = .ok m → hostLoad s file = .ok { s with mem := m }) ∧
    (∀ e, loadFile s.mem file = .error e → hostLoad s file = .error e)) ∧
  (∀ (s : State) (init : Init) (entryAddress : Word), s.status = .halted ∨ s.status = .aborted →
    hostRun s init entryAddress = .ok (State.launch s.printAddr init s.mem entryAddress) ∧
    hostInspect s = .ok ⟨s.a, s.x, s.y, s.sp, s.pc, s.flags⟩)

/-- R170: a program file's bytes stand contiguously from its little-endian load address, every other cell as it was; a file
that would run past 65535 is not loaded (log 18). -/
def Obligations.LoadedFileStandsContiguously : Prop :=
  ∀ (m : Memory) (lo hi : Byte) (bytes : List Byte), Memory.wf m = true →
    let base := lo.toNat + 256 * hi.toNat
    (base + bytes.length ≤ 65536 → ∃ m', loadFile m (lo :: hi :: bytes) = .ok m' ∧ Memory.wf m' = true ∧
      (∀ k b, bytes[k]? = some b → Memory.read m' (base + k) = b) ∧
      (∀ addr, addr < base ∨ base + bytes.length ≤ addr → Memory.read m' addr = Memory.read m addr)) ∧
    (65536 < base + bytes.length → loadFile m (lo :: hi :: bytes) = .error (.port (.outOfRange 65536)))

/-- R170, R160, R161: a created machine has the host's INIT, every cell reading 0 and nothing emitted. That a step of it answers
the same state is the model's choice (log 6), and so is a PC before the launch, an argument (log 27). Before its launch the host
attaches a console (log 27), peeks, pokes and loads (a poke's and a load's whole effect: HostMovesNeedNoRunInProgress,
LoadedFileStandsContiguously). Its launch, whatever memory then holds, has that memory and PC at the entry address; that it has
the INIT of the creation, and not the one given for a launch after an end, is the model's reading (log 17). -/
def Obligations.CreatedMachineIsSetUpThenLaunched : Prop :=
  ∀ (p : Word) (init : Init) (pc : Word),
    let s := hostCreate p init pc
    (s.a = init.a ∧ s.x = init.x ∧ s.y = init.y ∧ s.sp = init.sp ∧ s.flags = init.flags ∧ s.printAddr = p ∧ s.console = []) ∧
    (∀ addr : Int, 0 ≤ addr → addr < 65536 → hostPeek s addr = .ok 0) ∧
    (∀ k, runFor k s = .next s) ∧
    hostAttachConsole s = .ok s ∧
    (∀ (addr value : Int) (m : Memory), memWrite [] addr value = .ok m → hostPoke s addr value = .ok { s with mem := m }) ∧
    (∀ (file : List Byte) (m : Memory), loadFile [] file = .ok m → hostLoad s file = .ok { s with mem := m }) ∧
    (∀ (m : Memory) (fresh : Init) (entryAddress : Word),
      hostRun { s with mem := m } fresh entryAddress = .ok (State.launch p init m entryAddress))
end

