-- ==== Sys2Proof/Laws/PerInstr.lean ====
section
/-! SUPPORT. The per-instruction family `Shape`: every instruction is well formed (its mnemonic takes its mode, its data fits),
and it is encoded in one opcode byte and as many operand bytes as its mode takes (spec/30_encoding.md R50, R52, R53, R55). -/

namespace Sys2Proof.Laws.Shape

/-- The shape of an instruction as syntax. -/
def Statement (i : Instr) : Prop := i.wf = true ∧ (encode i).length = 1 + i.operandBytes

theorem shape_of_data {i : Instr} (pair : i.raw.pairExists = true) (fits : i.form.data < 256 ^ i.operandBytes)
    (len : (encode i).length = 1 + i.operandBytes) : Statement i :=
  ⟨by rw [Instr.wf, RawInstr.wf, pair, RawInstr.dataFits, Bool.true_and, decide_eq_true_eq]; exact fits, len⟩

theorem shape_of_no_operand {i : Instr} (pair : i.raw.pairExists = true) (data : i.form.data = 0) (n : i.operandBytes = 0)
    (len : (encode i).length = 1) : Statement i :=
  shape_of_data pair (by rw [data, n]; decide) (by rw [len, n])

theorem shape_of_byte {i : Instr} (d : Byte) (pair : i.raw.pairExists = true) (data : i.form.data = d.toNat)
    (n : i.operandBytes = 1) (len : (encode i).length = 2) : Statement i :=
  shape_of_data pair (by rw [data, n]; exact d.isLt) (by rw [len, n])

theorem shape_of_word {i : Instr} (w : Word) (pair : i.raw.pairExists = true) (data : i.form.data = w.toNat)
    (n : i.operandBytes = 2) (len : (encode i).length = 3) : Statement i :=
  shape_of_data pair (by rw [data, n]; exact w.isLt) (by rw [len, n])

theorem ldaImm (d : Byte) : Statement (.ldaImm d) := shape_of_byte d rfl rfl rfl rfl
theorem ldaZp (d : Byte) : Statement (.ldaZp d) := shape_of_byte d rfl rfl rfl rfl
theorem ldaZpx (d : Byte) : Statement (.ldaZpx d) := shape_of_byte d rfl rfl rfl rfl
theorem ldaAbs (w : Word) : Statement (.ldaAbs w) := shape_of_word w rfl rfl rfl rfl
theorem ldaAbx (w : Word) : Statement (.ldaAbx w) := shape_of_word w rfl rfl rfl rfl
theorem ldaAby (w : Word) : Statement (.ldaAby w) := shape_of_word w rfl rfl rfl rfl
theorem ldaIzx (d : Byte) : Statement (.ldaIzx d) := shape_of_byte d rfl rfl rfl rfl
theorem ldaIzy (d : Byte) : Statement (.ldaIzy d) := shape_of_byte d rfl rfl rfl rfl
theorem ldxImm (d : Byte) : Statement (.ldxImm d) := shape_of_byte d rfl rfl rfl rfl
theorem ldxZp (d : Byte) : Statement (.ldxZp d) := shape_of_byte d rfl rfl rfl rfl
theorem ldxZpy (d : Byte) : Statement (.ldxZpy d) := shape_of_byte d rfl rfl rfl rfl
theorem ldxAbs (w : Word) : Statement (.ldxAbs w) := shape_of_word w rfl rfl rfl rfl
theorem ldxAby (w : Word) : Statement (.ldxAby w) := shape_of_word w rfl rfl rfl rfl
theorem ldyImm (d : Byte) : Statement (.ldyImm d) := shape_of_byte d rfl rfl rfl rfl
theorem ldyZp (d : Byte) : Statement (.ldyZp d) := shape_of_byte d rfl rfl rfl rfl
theorem ldyZpx (d : Byte) : Statement (.ldyZpx d) := shape_of_byte d rfl rfl rfl rfl
theorem ldyAbs (w : Word) : Statement (.ldyAbs w) := shape_of_word w rfl rfl rfl rfl
theorem ldyAbx (w : Word) : Statement (.ldyAbx w) := shape_of_word w rfl rfl rfl rfl
theorem tax : Statement .tax := shape_of_no_operand rfl rfl rfl rfl
theorem txa : Statement .txa := shape_of_no_operand rfl rfl rfl rfl
theorem tay : Statement .tay := shape_of_no_operand rfl rfl rfl rfl
theorem tya : Statement .tya := shape_of_no_operand rfl rfl rfl rfl
theorem staZp (d : Byte) : Statement (.staZp d) := shape_of_byte d rfl rfl rfl rfl
theorem staZpx (d : Byte) : Statement (.staZpx d) := shape_of_byte d rfl rfl rfl rfl
theorem staAbs (w : Word) : Statement (.staAbs w) := shape_of_word w rfl rfl rfl rfl
theorem staAbx (w : Word) : Statement (.staAbx w) := shape_of_word w rfl rfl rfl rfl
theorem staAby (w : Word) : Statement (.staAby w) := shape_of_word w rfl rfl rfl rfl
theorem staIzx (d : Byte) : Statement (.staIzx d) := shape_of_byte d rfl rfl rfl rfl
theorem staIzy (d : Byte) : Statement (.staIzy d) := shape_of_byte d rfl rfl rfl rfl
theorem clc : Statement .clc := shape_of_no_operand rfl rfl rfl rfl
theorem adcImm (d : Byte) : Statement (.adcImm d) := shape_of_byte d rfl rfl rfl rfl
theorem adcZp (d : Byte) : Statement (.adcZp d) := shape_of_byte d rfl rfl rfl rfl
theorem adcZpx (d : Byte) : Statement (.adcZpx d) := shape_of_byte d rfl rfl rfl rfl
theorem adcAbs (w : Word) : Statement (.adcAbs w) := shape_of_word w rfl rfl rfl rfl
theorem adcAbx (w : Word) : Statement (.adcAbx w) := shape_of_word w rfl rfl rfl rfl
theorem adcAby (w : Word) : Statement (.adcAby w) := shape_of_word w rfl rfl rfl rfl
theorem adcIzx (d : Byte) : Statement (.adcIzx d) := shape_of_byte d rfl rfl rfl rfl
theorem adcIzy (d : Byte) : Statement (.adcIzy d) := shape_of_byte d rfl rfl rfl rfl
theorem cmpImm (d : Byte) : Statement (.cmpImm d) := shape_of_byte d rfl rfl rfl rfl
theorem cmpZp (d : Byte) : Statement (.cmpZp d) := shape_of_byte d rfl rfl rfl rfl
theorem cmpZpx (d : Byte) : Statement (.cmpZpx d) := shape_of_byte d rfl rfl rfl rfl
theorem cmpAbs (w : Word) : Statement (.cmpAbs w) := shape_of_word w rfl rfl rfl rfl
theorem cmpAbx (w : Word) : Statement (.cmpAbx w) := shape_of_word w rfl rfl rfl rfl
theorem cmpAby (w : Word) : Statement (.cmpAby w) := shape_of_word w rfl rfl rfl rfl
theorem cmpIzx (d : Byte) : Statement (.cmpIzx d) := shape_of_byte d rfl rfl rfl rfl
theorem cmpIzy (d : Byte) : Statement (.cmpIzy d) := shape_of_byte d rfl rfl rfl rfl
theorem cpxImm (d : Byte) : Statement (.cpxImm d) := shape_of_byte d rfl rfl rfl rfl
theorem cpxZp (d : Byte) : Statement (.cpxZp d) := shape_of_byte d rfl rfl rfl rfl
theorem cpxAbs (w : Word) : Statement (.cpxAbs w) := shape_of_word w rfl rfl rfl rfl
theorem cpyImm (d : Byte) : Statement (.cpyImm d) := shape_of_byte d rfl rfl rfl rfl
theorem cpyZp (d : Byte) : Statement (.cpyZp d) := shape_of_byte d rfl rfl rfl rfl
theorem cpyAbs (w : Word) : Statement (.cpyAbs w) := shape_of_word w rfl rfl rfl rfl
theorem beqRel (d : Byte) : Statement (.beqRel d) := shape_of_byte d rfl rfl rfl rfl
theorem inx : Statement .inx := shape_of_no_operand rfl rfl rfl rfl
theorem dex : Statement .dex := shape_of_no_operand rfl rfl rfl rfl
theorem iny : Statement .iny := shape_of_no_operand rfl rfl rfl rfl
theorem dey : Statement .dey := shape_of_no_operand rfl rfl rfl rfl
theorem jmpAbs (w : Word) : Statement (.jmpAbs w) := shape_of_word w rfl rfl rfl rfl
theorem jmpInd (w : Word) : Statement (.jmpInd w) := shape_of_word w rfl rfl rfl rfl
theorem jsrAbs (w : Word) : Statement (.jsrAbs w) := shape_of_word w rfl rfl rfl rfl
theorem brk : Statement .brk := shape_of_no_operand rfl rfl rfl rfl

end Sys2Proof.Laws.Shape
end

