-- ==== Sys2Proof/Laws/Decode.lean ====
section
/-! SUPPORT. The opcode table: its opcode bytes are R53's list, no two rows share one, and each row's instruction has the
row's mnemonic and mode. -/

namespace Sys2Proof

/-- The rows' opcode bytes, in order, are the spec's 61 bytes. -/
theorem opcodeTable_opcodes : opcodeTable.map (fun r => r.opcode.toNat) = Machine.supportedOpcodes := by decide

/-- No two rows share an opcode byte. -/
theorem opcodeTable_nodup : (opcodeTable.map fun r => r.opcode.toNat).Nodup := by decide

/-- A sample of what a row builds, the operand bytes zero. -/
def Build.sample : Build → Instr
  | .op i => i
  | .d8 f => f 0
  | .d16 f => f 0

/-- The operand bytes a row's format takes. -/
def Build.operandBytes : Build → Nat
  | .op _ => 0
  | .d8 _ => 1
  | .d16 _ => 2

/-- Each row's instruction has the row's mnemonic and mode, and the row's format is that of the mode. -/
theorem opcodeTable_rows : opcodeTable.all (fun r =>
    r.build.sample.mnemonic == r.mnemonic && r.build.sample.mode == r.mode &&
      r.build.operandBytes == r.mode.operandBytes) = true := by decide

end Sys2Proof
end

