-- ==== Sys2Proof/Laws/Memory.lean ====
section
/-! SUPPORT. AddressSpace: a read after a write, the cells a write leaves alone, and that every memory operation keeps the
canonical form; the memory port. -/

namespace Sys2Proof.Machine

theorem Memory.read_below {m : Memory} : ∀ {low addr : Nat}, Memory.wfFrom low m = true → addr < low →
    Memory.read m addr = Memory.unlisted := by
  induction m with
  | nil => intros; rfl
  | cons cell rest ih =>
    obtain ⟨key, value⟩ := cell
    intro low addr h lt
    simp only [Memory.wfFrom, Bool.and_eq_true, decide_eq_true_eq] at h
    obtain ⟨⟨⟨h1, -⟩, -⟩, h4⟩ := h
    have ne : ¬ key = addr := by omega
    rw [Memory.read, if_neg ne]
    exact ih h4 (by omega)

theorem Memory.wfFrom_weaken {m : Memory} {low low' : Nat} (le : low' ≤ low) (h : Memory.wfFrom low m = true) :
    Memory.wfFrom low' m = true := by
  cases m with
  | nil => rfl
  | cons cell rest =>
    obtain ⟨key, value⟩ := cell
    simp only [Memory.wfFrom, Bool.and_eq_true, decide_eq_true_eq] at h ⊢
    exact ⟨⟨⟨by omega, h.1.1.2⟩, h.1.2⟩, h.2⟩

/-- A write leaves every other cell alone. -/
theorem Memory.read_write_other (m : Memory) {a b : Nat} (v : Byte) (ne : b ≠ a) :
    Memory.read (Memory.write m a v) b = Memory.read m b := by
  induction m with
  | nil =>
    by_cases hv : v = Memory.unlisted <;> simp [Memory.write, Memory.read, hv, Ne.symm ne]
  | cons cell rest ih =>
    obtain ⟨key, value⟩ := cell
    by_cases lt : key < a
    · simp only [Memory.write, if_pos lt, Memory.read, ih]
    · by_cases eq : key = a
      · subst eq
        by_cases hv : v = Memory.unlisted <;> simp [Memory.write, Memory.read, hv, Ne.symm ne]
      · by_cases hv : v = Memory.unlisted <;> simp [Memory.write, Memory.read, lt, eq, hv, Ne.symm ne]

theorem Memory.read_write_same_from {m : Memory} (a : Nat) (v : Byte) : ∀ {low : Nat}, Memory.wfFrom low m = true →
    Memory.read (Memory.write m a v) a = v := by
  induction m with
  | nil =>
    intro low _
    by_cases hv : v = Memory.unlisted <;> simp [Memory.write, Memory.read, hv]
  | cons cell rest ih =>
    obtain ⟨key, value⟩ := cell
    intro low h
    simp only [Memory.wfFrom, Bool.and_eq_true, decide_eq_true_eq] at h
    obtain ⟨⟨⟨h1, h2⟩, h3⟩, h4⟩ := h
    by_cases lt : key < a
    · have ne : ¬ key = a := by omega
      simp only [Memory.write, if_pos lt, Memory.read, if_neg ne]
      exact ih h4
    · by_cases eq : key = a
      · subst eq
        by_cases hv : v = Memory.unlisted
        · simp only [Memory.write, lt, if_false, if_true, hv]
          exact Memory.read_below h4 (by omega)
        · simp [Memory.write, Memory.read, hv]
      · by_cases hv : v = Memory.unlisted
        · have below : Memory.read rest a = Memory.unlisted := Memory.read_below h4 (by omega)
          simp [Memory.write, Memory.read, lt, eq, hv, below]
        · simp [Memory.write, Memory.read, lt, eq, hv]

/-- A read after a write to the same cell gives the byte written. -/
theorem Memory.read_write_same {m : Memory} (h : Memory.wf m = true) (a : Nat) (v : Byte) :
    Memory.read (Memory.write m a v) a = v :=
  Memory.read_write_same_from a v h

theorem Memory.wfFrom_write {m : Memory} {a : Nat} (v : Byte) (bound : a < spaceSize) :
    ∀ {low : Nat}, low ≤ a → Memory.wfFrom low m = true → Memory.wfFrom low (Memory.write m a v) = true := by
  induction m with
  | nil =>
    intro low le _
    by_cases hv : v = Memory.unlisted <;> simp [Memory.write, Memory.wfFrom, hv, le, bound]
  | cons cell rest ih =>
    obtain ⟨key, value⟩ := cell
    intro low le h
    simp only [Memory.wfFrom, Bool.and_eq_true, decide_eq_true_eq] at h
    obtain ⟨⟨⟨h1, h2⟩, h3⟩, h4⟩ := h
    by_cases lt : key < a
    · simp [Memory.write, lt, Memory.wfFrom, h1, h2, h3, ih (show key + 1 ≤ a by omega) h4]
    · by_cases eq : key = a
      · subst eq
        by_cases hv : v = Memory.unlisted
        · simp only [Memory.write, lt, if_false, if_true, hv]
          exact Memory.wfFrom_weaken (by omega) h4
        · simp [Memory.write, Memory.wfFrom, hv, h1, h2, h4]
      · by_cases hv : v = Memory.unlisted
        · simp [Memory.write, lt, eq, hv, Memory.wfFrom, h1, h2, h3, h4]
        · have le' : a + 1 ≤ key := by omega
          simp [Memory.write, lt, eq, hv, Memory.wfFrom, le, bound, le', h2, h3, h4]

/-- A write keeps the canonical form. -/
theorem Memory.wf_write {m : Memory} (h : Memory.wf m = true) {a : Nat} (bound : a < spaceSize) (v : Byte) :
    Memory.wf (Memory.write m a v) = true :=
  Memory.wfFrom_write v bound (Nat.zero_le a) h

/-! ### The port -/

theorem inSpace_iff (addr : Int) : inSpace addr = true ↔ 0 ≤ addr ∧ addr < 65536 := by
  cases addr with
  | ofNat n =>
    simp only [inSpace, Nat.ble_eq, Int.ofNat_eq_natCast]
    omega
  | negSucc n =>
    simp only [inSpace, Bool.false_eq_true, false_iff]
    omega

theorem isByte_iff (value : Int) : isByte value = true ↔ 0 ≤ value ∧ value < 256 := by
  cases value with
  | ofNat n =>
    simp only [isByte, Nat.ble_eq, Int.ofNat_eq_natCast]
    omega
  | negSucc n =>
    simp only [isByte, Bool.false_eq_true, false_iff]
    omega

theorem isByte_byte (v : Byte) : isByte v.toNat = true := by
  have := v.isLt
  rw [isByte_iff]
  omega

theorem inSpace_word (w : Word) : inSpace w.toNat = true := by
  have := w.isLt
  rw [inSpace_iff]; omega

theorem memRead_ok {m : Memory} {addr : Int} (h : inSpace addr = true) :
    memRead m addr = .ok (Memory.read m addr.toNat) := by
  simp [memRead, h]

theorem memRead_error {m : Memory} {addr : Int} (h : inSpace addr = false) :
    memRead m addr = .error (.outOfRange addr) := by
  simp [memRead, h]

/-- A write of a byte inside AddressSpace cannot fail (R31, R35). -/
theorem memWrite_byte (m : Memory) {addr : Int} (h : inSpace addr = true) (v : Byte) :
    memWrite m addr v.toNat = .ok (Memory.write m addr.toNat v) := by
  simp [memWrite, h, isByte_byte]

/-- Every write of the port keeps the canonical form. -/
theorem memWrite_wf {m m' : Memory} {addr value : Int} (wf : Memory.wf m = true) (h : memWrite m addr value = .ok m') :
    Memory.wf m' = true := by
  unfold memWrite at h
  split at h
  · rename_i hs
    rw [inSpace_iff] at hs
    split at h
    · injection h with h
      subst h
      exact Memory.wf_write wf (show addr.toNat < 65536 by omega) _
    · cases h
  · split at h
    · cases h
    · split at h <;> cases h

theorem joinBytes_toNat (lo hi : Byte) : (joinBytes lo hi).toNat = lo.toNat + 256 * hi.toNat := by
  have := lo.isLt
  have := hi.isLt
  simp only [joinBytes, BitVec.toNat_append, Nat.shiftLeft_eq]
  rw [← Nat.shiftLeft_eq, ← Nat.shiftLeft_add_eq_or_of_lt lo.isLt, Nat.shiftLeft_eq]
  omega

theorem joinBytes_low_high (w : Word) : joinBytes (lowByte w) (highByte w) = w := by
  apply BitVec.eq_of_toNat_eq
  have := w.isLt
  rw [joinBytes_toNat]
  simp only [lowByte, highByte, BitVec.extractLsb'_toNat, Nat.shiftRight_eq_div_pow]
  omega

/-- A two-byte read whose two addresses are inside AddressSpace. -/
theorem memRead2_inside {m : Memory} {loc : Int} (h1 : inSpace loc = true) (h2 : inSpace (loc + 1) = true) :
    memRead2 m loc = .ok (joinBytes (Memory.read m loc.toNat) (Memory.read m (loc + 1).toNat)) := by
  simp only [memRead2, memRead_ok h1, memRead_ok h2]

/-- A two-byte read inside AddressSpace gives the little-endian pair. -/
theorem memRead2_ok {m : Memory} {loc : Nat} (h : loc + 1 < 65536) :
    memRead2 m loc = .ok (joinBytes (Memory.read m loc) (Memory.read m (loc + 1))) := by
  have h1 : inSpace (loc : Int) = true := by rw [inSpace_iff]; omega
  have h2 : inSpace ((loc : Int) + 1) = true := by rw [inSpace_iff]; omega
  have e : ((loc : Int) + 1).toNat = loc + 1 := by omega
  have pair := memRead2_inside (m := m) h1 h2
  rw [e, Int.toNat_natCast] at pair
  exact pair

/-- A two-byte read fails as its second byte does (R38): the high byte's address is not wrapped. -/
theorem memRead2_high_error {m : Memory} {loc : Int} (h1 : inSpace loc = true) (h2 : inSpace (loc + 1) = false) :
    memRead2 m loc = .error (.outOfRange (loc + 1)) := by
  simp only [memRead2, memRead_ok h1, memRead_error h2]

end Sys2Proof.Machine
end

