-- ==== Sys2Proof/Laws/State.lean ====
section
/-! SUPPORT. What each update of the state does to each field, by computation. -/

namespace Sys2Proof.Machine

/-! ### setA -/

@[simp] theorem State.setA_a (s : State) (v : Byte) : (s.setA v).a = v := rfl
@[simp] theorem State.setA_x (s : State) (v : Byte) : (s.setA v).x = s.x := rfl
@[simp] theorem State.setA_y (s : State) (v : Byte) : (s.setA v).y = s.y := rfl
@[simp] theorem State.setA_sp (s : State) (v : Byte) : (s.setA v).sp = s.sp := rfl
@[simp] theorem State.setA_pc (s : State) (v : Byte) : (s.setA v).pc = s.pc := rfl
@[simp] theorem State.setA_flags (s : State) (v : Byte) : (s.setA v).flags = s.flags := rfl
@[simp] theorem State.setA_mem (s : State) (v : Byte) : (s.setA v).mem = s.mem := rfl
@[simp] theorem State.setA_console (s : State) (v : Byte) : (s.setA v).console = s.console := rfl
@[simp] theorem State.setA_status (s : State) (v : Byte) : (s.setA v).status = s.status := rfl
@[simp] theorem State.setA_printAddr (s : State) (v : Byte) : (s.setA v).printAddr = s.printAddr := rfl

/-! ### setX -/

@[simp] theorem State.setX_a (s : State) (v : Byte) : (s.setX v).a = s.a := rfl
@[simp] theorem State.setX_x (s : State) (v : Byte) : (s.setX v).x = v := rfl
@[simp] theorem State.setX_y (s : State) (v : Byte) : (s.setX v).y = s.y := rfl
@[simp] theorem State.setX_sp (s : State) (v : Byte) : (s.setX v).sp = s.sp := rfl
@[simp] theorem State.setX_pc (s : State) (v : Byte) : (s.setX v).pc = s.pc := rfl
@[simp] theorem State.setX_flags (s : State) (v : Byte) : (s.setX v).flags = s.flags := rfl
@[simp] theorem State.setX_mem (s : State) (v : Byte) : (s.setX v).mem = s.mem := rfl
@[simp] theorem State.setX_console (s : State) (v : Byte) : (s.setX v).console = s.console := rfl
@[simp] theorem State.setX_status (s : State) (v : Byte) : (s.setX v).status = s.status := rfl
@[simp] theorem State.setX_printAddr (s : State) (v : Byte) : (s.setX v).printAddr = s.printAddr := rfl

/-! ### setY -/

@[simp] theorem State.setY_a (s : State) (v : Byte) : (s.setY v).a = s.a := rfl
@[simp] theorem State.setY_x (s : State) (v : Byte) : (s.setY v).x = s.x := rfl
@[simp] theorem State.setY_y (s : State) (v : Byte) : (s.setY v).y = v := rfl
@[simp] theorem State.setY_sp (s : State) (v : Byte) : (s.setY v).sp = s.sp := rfl
@[simp] theorem State.setY_pc (s : State) (v : Byte) : (s.setY v).pc = s.pc := rfl
@[simp] theorem State.setY_flags (s : State) (v : Byte) : (s.setY v).flags = s.flags := rfl
@[simp] theorem State.setY_mem (s : State) (v : Byte) : (s.setY v).mem = s.mem := rfl
@[simp] theorem State.setY_console (s : State) (v : Byte) : (s.setY v).console = s.console := rfl
@[simp] theorem State.setY_status (s : State) (v : Byte) : (s.setY v).status = s.status := rfl
@[simp] theorem State.setY_printAddr (s : State) (v : Byte) : (s.setY v).printAddr = s.printAddr := rfl

/-! ### setPc -/

@[simp] theorem State.setPc_a (s : State) (w : Word) : (s.setPc w).a = s.a := rfl
@[simp] theorem State.setPc_x (s : State) (w : Word) : (s.setPc w).x = s.x := rfl
@[simp] theorem State.setPc_y (s : State) (w : Word) : (s.setPc w).y = s.y := rfl
@[simp] theorem State.setPc_sp (s : State) (w : Word) : (s.setPc w).sp = s.sp := rfl
@[simp] theorem State.setPc_pc (s : State) (w : Word) : (s.setPc w).pc = w := rfl
@[simp] theorem State.setPc_flags (s : State) (w : Word) : (s.setPc w).flags = s.flags := rfl
@[simp] theorem State.setPc_mem (s : State) (w : Word) : (s.setPc w).mem = s.mem := rfl
@[simp] theorem State.setPc_console (s : State) (w : Word) : (s.setPc w).console = s.console := rfl
@[simp] theorem State.setPc_status (s : State) (w : Word) : (s.setPc w).status = s.status := rfl
@[simp] theorem State.setPc_printAddr (s : State) (w : Word) : (s.setPc w).printAddr = s.printAddr := rfl

/-! ### setFlags -/

@[simp] theorem State.setFlags_a (s : State) (f : Flags) : (s.setFlags f).a = s.a := rfl
@[simp] theorem State.setFlags_x (s : State) (f : Flags) : (s.setFlags f).x = s.x := rfl
@[simp] theorem State.setFlags_y (s : State) (f : Flags) : (s.setFlags f).y = s.y := rfl
@[simp] theorem State.setFlags_sp (s : State) (f : Flags) : (s.setFlags f).sp = s.sp := rfl
@[simp] theorem State.setFlags_pc (s : State) (f : Flags) : (s.setFlags f).pc = s.pc := rfl
@[simp] theorem State.setFlags_flags (s : State) (f : Flags) : (s.setFlags f).flags = f := rfl
@[simp] theorem State.setFlags_mem (s : State) (f : Flags) : (s.setFlags f).mem = s.mem := rfl
@[simp] theorem State.setFlags_console (s : State) (f : Flags) : (s.setFlags f).console = s.console := rfl
@[simp] theorem State.setFlags_status (s : State) (f : Flags) : (s.setFlags f).status = s.status := rfl
@[simp] theorem State.setFlags_printAddr (s : State) (f : Flags) : (s.setFlags f).printAddr = s.printAddr := rfl

/-! ### setMem -/

@[simp] theorem State.setMem_a (s : State) (m : Memory) : (s.setMem m).a = s.a := rfl
@[simp] theorem State.setMem_x (s : State) (m : Memory) : (s.setMem m).x = s.x := rfl
@[simp] theorem State.setMem_y (s : State) (m : Memory) : (s.setMem m).y = s.y := rfl
@[simp] theorem State.setMem_sp (s : State) (m : Memory) : (s.setMem m).sp = s.sp := rfl
@[simp] theorem State.setMem_pc (s : State) (m : Memory) : (s.setMem m).pc = s.pc := rfl
@[simp] theorem State.setMem_flags (s : State) (m : Memory) : (s.setMem m).flags = s.flags := rfl
@[simp] theorem State.setMem_mem (s : State) (m : Memory) : (s.setMem m).mem = m := rfl
@[simp] theorem State.setMem_console (s : State) (m : Memory) : (s.setMem m).console = s.console := rfl
@[simp] theorem State.setMem_status (s : State) (m : Memory) : (s.setMem m).status = s.status := rfl
@[simp] theorem State.setMem_printAddr (s : State) (m : Memory) : (s.setMem m).printAddr = s.printAddr := rfl

/-! ### setStatus -/

@[simp] theorem State.setStatus_a (s : State) (r : RunStatus) : (s.setStatus r).a = s.a := rfl
@[simp] theorem State.setStatus_x (s : State) (r : RunStatus) : (s.setStatus r).x = s.x := rfl
@[simp] theorem State.setStatus_y (s : State) (r : RunStatus) : (s.setStatus r).y = s.y := rfl
@[simp] theorem State.setStatus_sp (s : State) (r : RunStatus) : (s.setStatus r).sp = s.sp := rfl
@[simp] theorem State.setStatus_pc (s : State) (r : RunStatus) : (s.setStatus r).pc = s.pc := rfl
@[simp] theorem State.setStatus_flags (s : State) (r : RunStatus) : (s.setStatus r).flags = s.flags := rfl
@[simp] theorem State.setStatus_mem (s : State) (r : RunStatus) : (s.setStatus r).mem = s.mem := rfl
@[simp] theorem State.setStatus_console (s : State) (r : RunStatus) : (s.setStatus r).console = s.console := rfl
@[simp] theorem State.setStatus_status (s : State) (r : RunStatus) : (s.setStatus r).status = r := rfl
@[simp] theorem State.setStatus_printAddr (s : State) (r : RunStatus) : (s.setStatus r).printAddr = s.printAddr := rfl

/-! ### emit -/

@[simp] theorem State.emit_a (s : State) (b : Byte) : (s.emit b).a = s.a := rfl
@[simp] theorem State.emit_x (s : State) (b : Byte) : (s.emit b).x = s.x := rfl
@[simp] theorem State.emit_y (s : State) (b : Byte) : (s.emit b).y = s.y := rfl
@[simp] theorem State.emit_sp (s : State) (b : Byte) : (s.emit b).sp = s.sp := rfl
@[simp] theorem State.emit_pc (s : State) (b : Byte) : (s.emit b).pc = s.pc := rfl
@[simp] theorem State.emit_flags (s : State) (b : Byte) : (s.emit b).flags = s.flags := rfl
@[simp] theorem State.emit_mem (s : State) (b : Byte) : (s.emit b).mem = s.mem := rfl
@[simp] theorem State.emit_console (s : State) (b : Byte) : (s.emit b).console = s.console ++ [b] := rfl
@[simp] theorem State.emit_status (s : State) (b : Byte) : (s.emit b).status = s.status := rfl
@[simp] theorem State.emit_printAddr (s : State) (b : Byte) : (s.emit b).printAddr = s.printAddr := rfl

/-! ### advance -/

@[simp] theorem State.advance_a (s : State) (k : Nat) : (s.advance k).a = s.a := rfl
@[simp] theorem State.advance_x (s : State) (k : Nat) : (s.advance k).x = s.x := rfl
@[simp] theorem State.advance_y (s : State) (k : Nat) : (s.advance k).y = s.y := rfl
@[simp] theorem State.advance_sp (s : State) (k : Nat) : (s.advance k).sp = s.sp := rfl
@[simp] theorem State.advance_pc (s : State) (k : Nat) : (s.advance k).pc = s.pc + BitVec.ofNat 16 k := rfl
@[simp] theorem State.advance_flags (s : State) (k : Nat) : (s.advance k).flags = s.flags := rfl
@[simp] theorem State.advance_mem (s : State) (k : Nat) : (s.advance k).mem = s.mem := rfl
@[simp] theorem State.advance_console (s : State) (k : Nat) : (s.advance k).console = s.console := rfl
@[simp] theorem State.advance_status (s : State) (k : Nat) : (s.advance k).status = s.status := rfl
@[simp] theorem State.advance_printAddr (s : State) (k : Nat) : (s.advance k).printAddr = s.printAddr := rfl

/-! ### The launch -/

@[simp] theorem State.launch_a (p : Word) (i : Init) (m : Memory) (e : Word) : (State.launch p i m e).a = i.a := rfl
@[simp] theorem State.launch_x (p : Word) (i : Init) (m : Memory) (e : Word) : (State.launch p i m e).x = i.x := rfl
@[simp] theorem State.launch_y (p : Word) (i : Init) (m : Memory) (e : Word) : (State.launch p i m e).y = i.y := rfl
@[simp] theorem State.launch_sp (p : Word) (i : Init) (m : Memory) (e : Word) : (State.launch p i m e).sp = i.sp := rfl
@[simp] theorem State.launch_pc (p : Word) (i : Init) (m : Memory) (e : Word) : (State.launch p i m e).pc = e := rfl
@[simp] theorem State.launch_flags (p : Word) (i : Init) (m : Memory) (e : Word) : (State.launch p i m e).flags = i.flags := rfl
@[simp] theorem State.launch_mem (p : Word) (i : Init) (m : Memory) (e : Word) : (State.launch p i m e).mem = m := rfl
@[simp] theorem State.launch_console (p : Word) (i : Init) (m : Memory) (e : Word) : (State.launch p i m e).console = [] := rfl
@[simp] theorem State.launch_status (p : Word) (i : Init) (m : Memory) (e : Word) : (State.launch p i m e).status = .running := rfl
@[simp] theorem State.launch_printAddr (p : Word) (i : Init) (m : Memory) (e : Word) : (State.launch p i m e).printAddr = p := rfl

/-! ### The flag computations -/

@[simp] theorem compareFlags_n (reg value : Byte) (f : Flags) : (compareFlags reg value f).n = decide ((reg.toNat : Int) - value.toNat < 0) := rfl
@[simp] theorem compareFlags_z (reg value : Byte) (f : Flags) : (compareFlags reg value f).z = decide ((reg.toNat : Int) - value.toNat = 0) := rfl
@[simp] theorem compareFlags_c (reg value : Byte) (f : Flags) : (compareFlags reg value f).c = f.c := rfl
@[simp] theorem compareFlags_d (reg value : Byte) (f : Flags) : (compareFlags reg value f).d = f.d := rfl
@[simp] theorem compareFlags_i (reg value : Byte) (f : Flags) : (compareFlags reg value f).i = f.i := rfl
@[simp] theorem compareFlags_b (reg value : Byte) (f : Flags) : (compareFlags reg value f).b = f.b := rfl
@[simp] theorem clearCarry_n (f : Flags) : (clearCarry f).n = f.n := rfl
@[simp] theorem clearCarry_z (f : Flags) : (clearCarry f).z = f.z := rfl
@[simp] theorem clearCarry_c (f : Flags) : (clearCarry f).c = false := rfl
@[simp] theorem clearCarry_d (f : Flags) : (clearCarry f).d = f.d := rfl
@[simp] theorem clearCarry_i (f : Flags) : (clearCarry f).i = f.i := rfl
@[simp] theorem clearCarry_b (f : Flags) : (clearCarry f).b = f.b := rfl

end Sys2Proof.Machine
end

