-- ==== Sys2Proof/Laws/Operands.lean ====
section
/-! SUPPORT. One lemma per shared operation of the meanings: what resolving an operand and running a memory-mode instruction
can answer. -/

namespace Sys2Proof.Machine

theorem Word.ofInt_toNat {ea : Int} (h : inSpace ea = true) : (BitVec.ofInt 16 ea).toNat = ea.toNat := by
  rw [inSpace_iff] at h
  rw [BitVec.toNat_ofInt]
  congr 1
  omega

/-- Resolution where the effective address lies in AddressSpace: the address and the byte there (R86, R88). -/
theorem resolveMem_ok {m : MemForm} {s : State} {ea : Int} (h : effectiveAddress m s = .ok ea) (inside : inSpace ea = true) :
    resolveMem m s = .ok (BitVec.ofInt 16 ea, Memory.read s.mem ea.toNat) := by
  simp only [resolveMem, h, memRead_ok inside]

/-- Resolution where the effective address lies outside: the eager read fails (R86). -/
theorem resolveMem_outside {m : MemForm} {s : State} {ea : Int} (h : effectiveAddress m s = .ok ea)
    (outside : inSpace ea = false) : resolveMem m s = .error (.outOfRange ea) := by
  simp only [resolveMem, h, memRead_error outside]

/-- Resolution where a pointer read fails. -/
theorem resolveMem_pointer_error {m : MemForm} {s : State} {e : PortError} (h : effectiveAddress m s = .error e) :
    resolveMem m s = .error e := by
  simp only [resolveMem, h]

theorem sext8_bounds (d : Byte) : -128 ≤ sext8 d ∧ sext8 d ≤ 127 := by
  have := d.isLt
  unfold sext8
  split <;> omega

theorem execMemory_ok {m : MemForm} {act : Word → Byte → State → Result} {s : State} {addr : Word} {value : Byte}
    (h : resolveMem m s = .ok (addr, value)) :
    execMemory m act s = act addr value (s.advance (1 + m.mode.operandBytes)) := by
  simp only [execMemory, h]

theorem execMemory_error {m : MemForm} {act : Word → Byte → State → Result} {s : State} {e : PortError}
    (h : resolveMem m s = .error e) : execMemory m act s = raiseInDecode e m.mode.operandBytes s := by
  simp only [execMemory, h]

/-- Everything a memory-mode instruction can do: act on a resolved operand, or raise the failed read. -/
theorem execMemory_cases (m : MemForm) (act : Word → Byte → State → Result) (s : State) :
    (∃ addr value, resolveMem m s = .ok (addr, value) ∧
      execMemory m act s = act addr value (s.advance (1 + m.mode.operandBytes))) ∨
    (∃ e, resolveMem m s = .error e ∧ execMemory m act s = raiseInDecode e m.mode.operandBytes s) := by
  cases h : resolveMem m s with
  | ok r => exact .inl ⟨r.1, r.2, rfl, execMemory_ok h⟩
  | error e => exact .inr ⟨e, rfl, execMemory_error h⟩

/-- Raising is never a next state. -/
theorem raisePort_ne_next (e : PortError) (s t : State) : raisePort e s ≠ .next t := by
  cases e <;> simp [raisePort, raise]

theorem raiseInDecode_ne_next (e : PortError) (n : Nat) (s t : State) : raiseInDecode e n s ≠ .next t :=
  raisePort_ne_next _ _ _

/-- If a memory-mode instruction answers a next state, its operand has been resolved and its action has answered it. -/
theorem execMemory_next {m : MemForm} {act : Word → Byte → State → Result} {s t : State} (h : execMemory m act s = .next t) :
    ∃ addr value, resolveMem m s = .ok (addr, value) ∧ act addr value (s.advance (1 + m.mode.operandBytes)) = .next t := by
  rcases execMemory_cases m act s with ⟨addr, value, hr, he⟩ | ⟨e, -, he⟩
  · exact ⟨addr, value, hr, he ▸ h⟩
  · exact absurd (he ▸ h) (raiseInDecode_ne_next _ _ _ _)

/-- STA's write cannot fail once decode has read its address (R107). -/
theorem storeA_eq (addr : Word) (s : State) : storeA addr s = .next (s.setMem (Memory.write s.mem addr.toNat s.a)) := by
  have written := memWrite_byte s.mem (inSpace_word addr) s.a
  rw [Int.toNat_natCast] at written
  unfold storeA
  rw [written]

theorem callPrint_print (s : State) : callPrint s.printAddr s = .next (s.emit s.a) := by
  simp only [callPrint, if_true]

theorem callPrint_other {addr : Word} {s : State} (ne : addr ≠ s.printAddr) :
    callPrint addr s = raise (.unsupportedInstruction (.jsrTarget addr)) s := by
  simp only [callPrint, if_neg ne]

end Sys2Proof.Machine
end

