-- ==== Sys2Proof/Laws/Exec.lean ====
section
/-! SUPPORT. Every meaning in one equation: decode the operand, advance the PC, hand the record to the Executor
(spec/40_fetch_and_addressing.md R70, R88, R89). Frames and invariants go through it instead of through 61 arms. -/

namespace Sys2Proof.Machine

/-- An action on the value of an operand record; a record without one (no such instruction, R88) is left alone. -/
def onValue (act : Byte → State → State) (o : Operand) (t : State) : Result :=
  match o with
  | .immediate v => .next (act v t)
  | .memory _ v => .next (act v t)
  | .accumulator v => .next (act v t)
  | .implied => .next t

/-- An action on the address of an operand record; a record without one (no such instruction, R88) is left alone. -/
def onAddr (act : Word → State → Result) (o : Operand) (t : State) : Result :=
  match o with
  | .memory addr _ => act addr t
  | .immediate _ => .next t
  | .accumulator _ => .next t
  | .implied => .next t

/-- The Executor on a mnemonic and an operand record. -/
def executor (mn : Mnemonic) (o : Operand) (t : State) : Result :=
  match mn with
  | .lda => onValue loadA o t
  | .ldx => onValue loadX o t
  | .ldy => onValue loadY o t
  | .tax => .next (transferAX t)
  | .txa => .next (transferXA t)
  | .tay => .next (transferAY t)
  | .tya => .next (transferYA t)
  | .sta => onAddr storeA o t
  | .clc => .next (clearC t)
  | .adc => onValue addToA o t
  | .cmp => onValue compareA o t
  | .cpx => onValue compareX o t
  | .cpy => onValue compareY o t
  | .beq => onAddr branchIfZero o t
  | .inx => .next (incrementX t)
  | .dex => .next (decrementX t)
  | .iny => .next (incrementY t)
  | .dey => .next (decrementY t)
  | .jmp => onAddr jumpTo o t
  | .jsr => onAddr callPrint o t
  | .brk => .next (halt t)

/-- What decoding and then executing answers. -/
def decodeThen (form : OperandForm) (mn : Mnemonic) (s : State) : Result :=
  match resolve form s with
  | .error e => raiseInDecode e form.mode.operandBytes s
  | .ok o => executor mn o (s.advance (1 + form.mode.operandBytes))

theorem execMemory_resolve (mn : Mnemonic) (act : Word → Byte → State → Result) (m : MemForm) (s : State)
    (h : ∀ addr value t, act addr value t = executor mn (.memory addr value) t) :
    execMemory m act s = decodeThen (.mem m) mn s := by
  cases hr : resolveMem m s with
  | error e => simp only [execMemory, decodeThen, resolve, hr, Except.map]; rfl
  | ok r => simp only [execMemory, decodeThen, resolve, hr, Except.map, h]; rfl

theorem execMemoryValue_resolve (mn : Mnemonic) (act : Byte → State → State) (m : MemForm) (s : State)
    (h : ∀ addr value t, .next (act value t) = executor mn (.memory addr value) t) :
    execMemoryValue m act s = decodeThen (.mem m) mn s :=
  execMemory_resolve mn _ m s h

theorem execMemoryAddr_resolve (mn : Mnemonic) (act : Word → State → Result) (m : MemForm) (s : State)
    (h : ∀ addr value t, act addr t = executor mn (.memory addr value) t) :
    execMemoryAddr m act s = decodeThen (.mem m) mn s :=
  execMemory_resolve mn _ m s h

/-- Everything an instruction does. -/
theorem exec_eq (i : Instr) (s : State) : exec i s = decodeThen i.form i.mnemonic s := by
  cases i <;> first
    | rfl
    | exact execMemoryValue_resolve .lda loadA _ s fun _ _ _ => rfl
    | exact execMemoryValue_resolve .ldx loadX _ s fun _ _ _ => rfl
    | exact execMemoryValue_resolve .ldy loadY _ s fun _ _ _ => rfl
    | exact execMemoryValue_resolve .adc addToA _ s fun _ _ _ => rfl
    | exact execMemoryValue_resolve .cmp compareA _ s fun _ _ _ => rfl
    | exact execMemoryValue_resolve .cpx compareX _ s fun _ _ _ => rfl
    | exact execMemoryValue_resolve .cpy compareY _ s fun _ _ _ => rfl
    | exact execMemoryAddr_resolve .sta storeA _ s fun _ _ _ => rfl
    | exact execMemoryAddr_resolve .beq branchIfZero _ s fun _ _ _ => rfl
    | exact execMemoryAddr_resolve .jmp jumpTo _ s fun _ _ _ => rfl
    | exact execMemoryAddr_resolve .jsr callPrint _ s fun _ _ _ => rfl

/-- If an instruction answers a next state, its operand has been resolved and the Executor has answered it. -/
theorem exec_next {i : Instr} {s t : State} (h : exec i s = .next t) :
    ∃ o, resolve i.form s = .ok o ∧ executor i.mnemonic o (s.advance (1 + i.operandBytes)) = .next t := by
  rw [exec_eq, decodeThen] at h
  cases hr : resolve i.form s with
  | error e =>
    rw [hr] at h
    exact absurd h (raiseInDecode_ne_next _ _ _ _)
  | ok o =>
    rw [hr] at h
    exact ⟨o, rfl, h⟩

/-- What an action can do to the state `t` in which the PC has been advanced, and which mnemonics do it. -/
inductive Effect (mn : Mnemonic) (t : State) : State → Prop where
  | writesA (v : Byte) (who : mn ∈ [.lda, .txa, .tya, .adc]) : Effect mn t (t.setA v)
  | writesX (v : Byte) (who : mn ∈ [.ldx, .tax, .inx, .dex]) : Effect mn t (t.setX v)
  | writesY (v : Byte) (who : mn ∈ [.ldy, .tay, .iny, .dey]) : Effect mn t (t.setY v)
  | compares (reg value : Byte) (who : mn ∈ [.cmp, .cpx, .cpy]) : Effect mn t (t.setFlags (compareFlags reg value t.flags))
  | clearsC (who : mn = .clc) : Effect mn t (t.setFlags (clearCarry t.flags))
  | stores (addr : Word) (who : mn = .sta) : Effect mn t (t.setMem (Memory.write t.mem addr.toNat t.a))
  | jumps (target : Word) (who : mn ∈ [.beq, .jmp]) : Effect mn t (t.setPc target)
  | emits (who : mn = .jsr) : Effect mn t (t.emit t.a)
  | halts (who : mn = .brk) : Effect mn t (t.setStatus .halted)
  | nothing : Effect mn t t

theorem onValue_next {act : Byte → State → State} {o : Operand} {t u : State} (h : onValue act o t = .next u) :
    (∃ v, act v t = u) ∨ t = u := by
  cases o with
  | implied => exact .inr (Host.Outcome.next.inj h)
  | accumulator v => exact .inl ⟨v, Host.Outcome.next.inj h⟩
  | immediate v => exact .inl ⟨v, Host.Outcome.next.inj h⟩
  | memory addr v => exact .inl ⟨v, Host.Outcome.next.inj h⟩

theorem onAddr_next {act : Word → State → Result} {o : Operand} {t u : State} (h : onAddr act o t = .next u) :
    (∃ addr, act addr t = .next u) ∨ t = u := by
  cases o with
  | implied => exact .inr (Host.Outcome.next.inj h)
  | accumulator v => exact .inr (Host.Outcome.next.inj h)
  | immediate v => exact .inr (Host.Outcome.next.inj h)
  | memory addr v => exact .inl ⟨addr, h⟩

theorem branchIfZero_next {addr : Word} {t u : State} (h : branchIfZero addr t = .next u) : t.setPc (addr + 1) = u ∨ t = u := by
  cases z : t.flags.z with
  | true => exact .inl (by simpa only [branchIfZero, z, if_true, Host.Outcome.next.injEq] using h)
  | false => exact .inr (by simpa only [branchIfZero, z, Bool.false_eq_true, if_false, Host.Outcome.next.injEq] using h)

theorem callPrint_next {addr : Word} {t u : State} (h : callPrint addr t = .next u) : t.emit t.a = u := by
  by_cases eq : addr = t.printAddr
  · rw [eq, callPrint_print] at h
    exact Host.Outcome.next.inj h
  · rw [callPrint_other eq] at h
    cases h

theorem executor_effect {mn : Mnemonic} {o : Operand} {t u : State} (h : executor mn o t = .next u) : Effect mn t u := by
  have value : ∀ {act : Byte → State → State}, onValue act o t = .next u → (∀ v, Effect mn t (act v t)) → Effect mn t u :=
    fun h eff => by
      rcases onValue_next h with ⟨v, rfl⟩ | rfl
      · exact eff v
      · exact .nothing
  have plain : ∀ {v : State}, Host.Outcome.next (φ := Fault) (ρ := Refusal) v = .next u → Effect mn t v → Effect mn t u :=
    fun h eff => Host.Outcome.next.inj h ▸ eff
  cases mn with
  | lda => exact value h fun v => .writesA _ (by decide)
  | ldx => exact value h fun v => .writesX _ (by decide)
  | ldy => exact value h fun v => .writesY _ (by decide)
  | tax => exact plain h (.writesX _ (by decide))
  | txa => exact plain h (.writesA _ (by decide))
  | tay => exact plain h (.writesY _ (by decide))
  | tya => exact plain h (.writesA _ (by decide))
  | sta =>
    rcases onAddr_next h with ⟨addr, hs⟩ | rfl
    · rw [storeA_eq] at hs
      exact plain hs (.stores _ rfl)
    · exact .nothing
  | clc => exact plain h (.clearsC rfl)
  | adc => exact value h fun v => .writesA _ (by decide)
  | cmp => exact value h fun v => .compares _ _ (by decide)
  | cpx => exact value h fun v => .compares _ _ (by decide)
  | cpy => exact value h fun v => .compares _ _ (by decide)
  | beq =>
    rcases onAddr_next h with ⟨addr, hs⟩ | rfl
    · rcases branchIfZero_next hs with rfl | rfl
      · exact .jumps _ (by decide)
      · exact .nothing
    · exact .nothing
  | inx => exact plain h (.writesX _ (by decide))
  | dex => exact plain h (.writesX _ (by decide))
  | iny => exact plain h (.writesY _ (by decide))
  | dey => exact plain h (.writesY _ (by decide))
  | jmp =>
    rcases onAddr_next h with ⟨addr, hs⟩ | rfl
    · exact plain hs (.jumps _ (by decide))
    · exact .nothing
  | jsr =>
    rcases onAddr_next h with ⟨addr, hs⟩ | rfl
    · exact callPrint_next hs ▸ .emits rfl
    · exact .nothing
  | brk => exact plain h (.halts rfl)

/-- What an instruction can do to the state when it answers a next state. -/
theorem exec_effect {i : Instr} {s t : State} (h : exec i s = .next t) :
    Effect i.mnemonic (s.advance (1 + i.operandBytes)) t := by
  obtain ⟨o, -, he⟩ := exec_next h
  exact executor_effect he

end Sys2Proof.Machine
end

