-- ==== Sys2Proof/Laws/HostPort.lean ====
section
/-! SUPPORT. One lemma per host move: everything it answers where no run is in progress, and that it answers nothing during
one (spec/70_reset_and_hazards.md R170). -/

namespace Sys2Proof.Machine

@[simp] theorem whenIdle_running {α : Type} {s : State} {move : Except HostError α} (run : s.status = .running) :
    whenIdle s move = .error .runInProgress := if_pos run

@[simp] theorem whenIdle_idle {α : Type} {s : State} {move : Except HostError α} (idle : s.status ≠ .running) :
    whenIdle s move = move := if_neg idle

theorem hostPeek_idle {s : State} {addr : Int} (idle : s.status ≠ .running) :
    hostPeek s addr = surface (memRead s.mem addr) := whenIdle_idle idle

theorem hostPoke_idle {s : State} {addr value : Int} (idle : s.status ≠ .running) :
    hostPoke s addr value = surface ((memWrite s.mem addr value).map s.setMem) := whenIdle_idle idle

theorem hostLoad_idle {s : State} {file : List Byte} (idle : s.status ≠ .running) :
    hostLoad s file = (loadFile s.mem file).map s.setMem := whenIdle_idle idle

theorem hostRun_idle {s : State} {fresh : Init} {entryAddress : Word} (idle : s.status ≠ .running) :
    hostRun s fresh entryAddress = .ok (State.launch s.printAddr (launchInit s fresh) s.mem entryAddress) := whenIdle_idle idle

/-! ### The created machine -/

@[simp] theorem hostCreate_a (p : Word) (i : Init) (w : Word) : (hostCreate p i w).a = i.a := rfl
@[simp] theorem hostCreate_x (p : Word) (i : Init) (w : Word) : (hostCreate p i w).x = i.x := rfl
@[simp] theorem hostCreate_y (p : Word) (i : Init) (w : Word) : (hostCreate p i w).y = i.y := rfl
@[simp] theorem hostCreate_sp (p : Word) (i : Init) (w : Word) : (hostCreate p i w).sp = i.sp := rfl
@[simp] theorem hostCreate_pc (p : Word) (i : Init) (w : Word) : (hostCreate p i w).pc = w := rfl
@[simp] theorem hostCreate_flags (p : Word) (i : Init) (w : Word) : (hostCreate p i w).flags = i.flags := rfl
@[simp] theorem hostCreate_mem (p : Word) (i : Init) (w : Word) : (hostCreate p i w).mem = [] := rfl
@[simp] theorem hostCreate_console (p : Word) (i : Init) (w : Word) : (hostCreate p i w).console = [] := rfl
@[simp] theorem hostCreate_status (p : Word) (i : Init) (w : Word) : (hostCreate p i w).status = .created := rfl
@[simp] theorem hostCreate_printAddr (p : Word) (i : Init) (w : Word) : (hostCreate p i w).printAddr = p := rfl

end Sys2Proof.Machine
end

