-- ==== Sys2Proof/Laws/Step.lean ====
section
/-! SUPPORT. One step and a run of steps: what each unfolds to, and an invariant's induction once for all runs. -/

namespace Sys2Proof.Machine

theorem step_running_some {s : State} {i : Instr} (run : s.status = .running) (f : fetch s = some i) : step s = exec i s := by
  unfold step
  rw [run]
  simp only [f]

theorem step_running_none {s : State} (run : s.status = .running) (f : fetch s = none) :
    step s = raiseUnsupportedOpcode s := by
  unfold step
  rw [run]
  simp only [f]

theorem step_idle {s : State} (idle : s.status ≠ .running) : step s = .next s := by
  unfold step
  cases h : s.status with
  | running => exact absurd h idle
  | created => rfl
  | halted => rfl
  | aborted => rfl

/-- Everything a step that answers a next state can be. -/
theorem step_next {s t : State} (h : step s = .next t) :
    (s.status ≠ .running ∧ t = s) ∨ (s.status = .running ∧ ∃ i, fetch s = some i ∧ exec i s = .next t) := by
  by_cases run : s.status = .running
  · cases f : fetch s with
    | none =>
      rw [step_running_none run f, raiseUnsupportedOpcode, raise] at h
      cases h
    | some i => exact .inr ⟨run, i, rfl, step_running_some run f ▸ h⟩
  · rw [step_idle run] at h
    exact .inl ⟨run, (Host.Outcome.next.inj h).symm⟩

theorem runFor_zero (s : State) : runFor 0 s = .next s := rfl

theorem runFor_succ_next {k : Nat} {s t : State} (h : step s = .next t) : runFor (k + 1) s = runFor k t := by
  have h' : Sys2Proof.core.step s = _ := h
  simp only [runFor, Host.Core.run, h']
  rfl

theorem runFor_succ_fault {k : Nat} {s : State} {f : Fault} (h : step s = .fault f) : runFor (k + 1) s = .fault f := by
  have h' : Sys2Proof.core.step s = _ := h
  simp only [runFor, Host.Core.run, h']
  rfl

theorem runFor_succ_refused {k : Nat} {s : State} {r : Refusal} (h : step s = .refused r) : runFor (k + 1) s = .refused r := by
  have h' : Sys2Proof.core.step s = _ := h
  simp only [runFor, Host.Core.run, h']
  rfl

/-- A relation that is reflexive, transitive and kept by every step holds along every run. -/
theorem runFor_next_induction {rel : State → State → Prop} (refl : ∀ s, rel s s)
    (trans : ∀ s t u, rel s t → rel t u → rel s u) (kept : ∀ s t, step s = .next t → rel s t) :
    ∀ (k : Nat) (s t : State), runFor k s = .next t → rel s t := by
  intro k
  induction k with
  | zero =>
    intro s t h
    rw [runFor_zero] at h
    exact Host.Outcome.next.inj h ▸ refl s
  | succ k ih =>
    intro s t h
    cases hs : step s with
    | next u =>
      rw [runFor_succ_next hs] at h
      exact trans s u t (kept s u hs) (ih u t h)
    | fault f =>
      rw [runFor_succ_fault hs] at h
      cases h
    | refused r =>
      rw [runFor_succ_refused hs] at h
      cases h

end Sys2Proof.Machine
end

