-- ==== Sys2Proof/Tests/Slice0.lean ====
section
/-! SUPPORT. The model's own tests: the well-formedness checks on ill-formed terms, every opcode byte written out from
spec/30_encoding.md R53, vectors of spec/95_test_vectors.md (their ids in the names), and a witness for the hypotheses of
every statement that has some. -/

open Sys2Proof Sys2Proof.Machine

namespace Sys2Proof.Tests

/-! ### Helpers -/

/-- A memory from a list of cells. -/
def cells (l : List (Nat × Byte)) : Memory := l.foldl (fun m c => Memory.write m c.1 c.2) []

/-- A run in progress at `p` with PRINT_ADDR 0xFFD2, `bytes` at `p` (addresses wrap) and the given cells. -/
def start (p : Word) (bytes : List Byte) (l : List (Nat × Byte) := []) : State :=
  let s := State.launch 0xFFD2 resetInit [] p
  { s with mem := placeBytes s 0 bytes (cells l) }

/-- One field of the state after one step, where the step goes on. -/
def after {α : Type} (f : State → α) (s : State) : Option α := (next? (step s)).map f

/-- The kind and info of the fault one step ends in. -/
def cause (s : State) : Option FaultCause := faultCause? (step s)

/-! ### Well-formedness: each check refuses an ill-formed term, and the boundary is accepted -/

theorem test_wf_absent_pair :
    RawInstr.wf ⟨.sta, .imm, 5⟩ = false ∧ RawInstr.wf ⟨.ldx, .zpx, 5⟩ = false ∧ RawInstr.wf ⟨.lda, .acc, 0⟩ = false ∧
    RawInstr.wf ⟨.jsr, .ind, 5⟩ = false := by decide

theorem test_wf_data_too_wide :
    RawInstr.wf ⟨.lda, .zp, 256⟩ = false ∧ RawInstr.wf ⟨.jmp, .abs, 65536⟩ = false ∧ RawInstr.wf ⟨.clc, .imp, 1⟩ = false := by
  decide

theorem test_wf_boundary :
    RawInstr.wf ⟨.lda, .zp, 255⟩ = true ∧ RawInstr.wf ⟨.jmp, .ind, 65535⟩ = true ∧ RawInstr.wf ⟨.clc, .imp, 0⟩ = true := by
  decide

/-! ### Decoding: the bytes of spec/30_encoding.md R53's table by mnemonic, bit by bit -/

theorem test_decode_LDA :
    decode [0b10101001, 0x9C, 0xEE] = .ok (.ldaImm 0x9C, [0xEE]) ∧
    decode [0b10100101, 0x9C, 0xEE] = .ok (.ldaZp 0x9C, [0xEE]) ∧
    decode [0b10110101, 0x9C, 0xEE] = .ok (.ldaZpx 0x9C, [0xEE]) ∧
    decode [0b10101101, 0x34, 0xF2, 0xEE] = .ok (.ldaAbs 0xF234, [0xEE]) ∧
    decode [0b10111101, 0x34, 0xF2, 0xEE] = .ok (.ldaAbx 0xF234, [0xEE]) ∧
    decode [0b10111001, 0x34, 0xF2, 0xEE] = .ok (.ldaAby 0xF234, [0xEE]) ∧
    decode [0b10100001, 0x9C, 0xEE] = .ok (.ldaIzx 0x9C, [0xEE]) ∧
    decode [0b10110001, 0x9C, 0xEE] = .ok (.ldaIzy 0x9C, [0xEE]) := by decide

theorem test_decode_LDX :
    decode [0b10100010, 0x9C, 0xEE] = .ok (.ldxImm 0x9C, [0xEE]) ∧
    decode [0b10100110, 0x9C, 0xEE] = .ok (.ldxZp 0x9C, [0xEE]) ∧
    decode [0b10110110, 0x9C, 0xEE] = .ok (.ldxZpy 0x9C, [0xEE]) ∧
    decode [0b10101110, 0x34, 0xF2, 0xEE] = .ok (.ldxAbs 0xF234, [0xEE]) ∧
    decode [0b10111110, 0x34, 0xF2, 0xEE] = .ok (.ldxAby 0xF234, [0xEE]) := by decide

theorem test_decode_LDY :
    decode [0b10100000, 0x9C, 0xEE] = .ok (.ldyImm 0x9C, [0xEE]) ∧
    decode [0b10100100, 0x9C, 0xEE] = .ok (.ldyZp 0x9C, [0xEE]) ∧
    decode [0b10110100, 0x9C, 0xEE] = .ok (.ldyZpx 0x9C, [0xEE]) ∧
    decode [0b10101100, 0x34, 0xF2, 0xEE] = .ok (.ldyAbs 0xF234, [0xEE]) ∧
    decode [0b10111100, 0x34, 0xF2, 0xEE] = .ok (.ldyAbx 0xF234, [0xEE]) := by decide

theorem test_decode_TAX :
    decode [0b10101010, 0xEE] = .ok (.tax, [0xEE]) := by decide

theorem test_decode_TXA :
    decode [0b10001010, 0xEE] = .ok (.txa, [0xEE]) := by decide

theorem test_decode_TAY :
    decode [0b10101000, 0xEE] = .ok (.tay, [0xEE]) := by decide

theorem test_decode_TYA :
    decode [0b10011000, 0xEE] = .ok (.tya, [0xEE]) := by decide

theorem test_decode_STA :
    decode [0b10000101, 0x9C, 0xEE] = .ok (.staZp 0x9C, [0xEE]) ∧
    decode [0b10010101, 0x9C, 0xEE] = .ok (.staZpx 0x9C, [0xEE]) ∧
    decode [0b10001101, 0x34, 0xF2, 0xEE] = .ok (.staAbs 0xF234, [0xEE]) ∧
    decode [0b10011101, 0x34, 0xF2, 0xEE] = .ok (.staAbx 0xF234, [0xEE]) ∧
    decode [0b10011001, 0x34, 0xF2, 0xEE] = .ok (.staAby 0xF234, [0xEE]) ∧
    decode [0b10000001, 0x9C, 0xEE] = .ok (.staIzx 0x9C, [0xEE]) ∧
    decode [0b10010001, 0x9C, 0xEE] = .ok (.staIzy 0x9C, [0xEE]) := by decide

theorem test_decode_CLC :
    decode [0b00011000, 0xEE] = .ok (.clc, [0xEE]) := by decide

theorem test_decode_ADC :
    decode [0b01101001, 0x9C, 0xEE] = .ok (.adcImm 0x9C, [0xEE]) ∧
    decode [0b01100101, 0x9C, 0xEE] = .ok (.adcZp 0x9C, [0xEE]) ∧
    decode [0b01110101, 0x9C, 0xEE] = .ok (.adcZpx 0x9C, [0xEE]) ∧
    decode [0b01101101, 0x34, 0xF2, 0xEE] = .ok (.adcAbs 0xF234, [0xEE]) ∧
    decode [0b01111101, 0x34, 0xF2, 0xEE] = .ok (.adcAbx 0xF234, [0xEE]) ∧
    decode [0b01111001, 0x34, 0xF2, 0xEE] = .ok (.adcAby 0xF234, [0xEE]) ∧
    decode [0b01100001, 0x9C, 0xEE] = .ok (.adcIzx 0x9C, [0xEE]) ∧
    decode [0b01110001, 0x9C, 0xEE] = .ok (.adcIzy 0x9C, [0xEE]) := by decide

theorem test_decode_CMP :
    decode [0b11001001, 0x9C, 0xEE] = .ok (.cmpImm 0x9C, [0xEE]) ∧
    decode [0b11000101, 0x9C, 0xEE] = .ok (.cmpZp 0x9C, [0xEE]) ∧
    decode [0b11010101, 0x9C, 0xEE] = .ok (.cmpZpx 0x9C, [0xEE]) ∧
    decode [0b11001101, 0x34, 0xF2, 0xEE] = .ok (.cmpAbs 0xF234, [0xEE]) ∧
    decode [0b11011101, 0x34, 0xF2, 0xEE] = .ok (.cmpAbx 0xF234, [0xEE]) ∧
    decode [0b11011001, 0x34, 0xF2, 0xEE] = .ok (.cmpAby 0xF234, [0xEE]) ∧
    decode [0b11000001, 0x9C, 0xEE] = .ok (.cmpIzx 0x9C, [0xEE]) ∧
    decode [0b11010001, 0x9C, 0xEE] = .ok (.cmpIzy 0x9C, [0xEE]) := by decide

theorem test_decode_CPX :
    decode [0b11100000, 0x9C, 0xEE] = .ok (.cpxImm 0x9C, [0xEE]) ∧
    decode [0b11100100, 0x9C, 0xEE] = .ok (.cpxZp 0x9C, [0xEE]) ∧
    decode [0b11101100, 0x34, 0xF2, 0xEE] = .ok (.cpxAbs 0xF234, [0xEE]) := by decide

theorem test_decode_CPY :
    decode [0b11000000, 0x9C, 0xEE] = .ok (.cpyImm 0x9C, [0xEE]) ∧
    decode [0b11000100, 0x9C, 0xEE] = .ok (.cpyZp 0x9C, [0xEE]) ∧
    decode [0b11001100, 0x34, 0xF2, 0xEE] = .ok (.cpyAbs 0xF234, [0xEE]) := by decide

theorem test_decode_BEQ :
    decode [0b11110000, 0x9C, 0xEE] = .ok (.beqRel 0x9C, [0xEE]) := by decide

theorem test_decode_INX :
    decode [0b11101000, 0xEE] = .ok (.inx, [0xEE]) := by decide

theorem test_decode_DEX :
    decode [0b11001010, 0xEE] = .ok (.dex, [0xEE]) := by decide

theorem test_decode_INY :
    decode [0b11001000, 0xEE] = .ok (.iny, [0xEE]) := by decide

theorem test_decode_DEY :
    decode [0b10001000, 0xEE] = .ok (.dey, [0xEE]) := by decide

theorem test_decode_JMP :
    decode [0b01001100, 0x34, 0xF2, 0xEE] = .ok (.jmpAbs 0xF234, [0xEE]) ∧
    decode [0b01101100, 0x34, 0xF2, 0xEE] = .ok (.jmpInd 0xF234, [0xEE]) := by decide

theorem test_decode_JSR :
    decode [0b00100000, 0x34, 0xF2, 0xEE] = .ok (.jsrAbs 0xF234, [0xEE]) := by decide

theorem test_decode_BRK :
    decode [0b00000000, 0xEE] = .ok (.brk, [0xEE]) := by decide

theorem test_decode_rejects :
    decode [0b11101010] = .error (.unsupportedOpcode 0xEA) ∧ decode [0b00000010, 1, 2] = .error (.unsupportedOpcode 0x02) ∧
    decode [0b11010000, 1] = .error (.unsupportedOpcode 0xD0) ∧ decode [0b10001110, 1, 2] = .error (.unsupportedOpcode 0x8E) ∧
    decode [0b10101001] = .error .truncated := by decide

/-- R53: 61 rows, no opcode byte twice. -/
theorem test_table_has_no_overlap : (opcodeTable.map (·.opcode)).Nodup ∧ opcodeTable.length = 61 := by decide

theorem test_table_word_reset :
    decodeTableWord 8 0xE8 = some .inx ∧ (next? (step (State.reset.withFetchWord 8 0xE8))).map (·.x) = some 1 ∧
    (next? (step (State.reset.withFetchWord 16 0x41A9))).map (·.a) = some 0x41 := by decide

/-! ### Vectors of spec/95_test_vectors.md, 2.1: fetch and addressing modes -/

theorem test_A1 : after (fun t => (t.a, t.pc)) (start 0x0200 [0xA9, 0x41]) = some (0x41, 0x0202) := by decide
theorem test_A2 : after (fun t => (t.a, t.pc)) (start 0x0200 [0xAD, 0x34, 0x12] [(0x1234, 0x77)]) = some (0x77, 0x0203) := by decide
theorem test_A3 : after (fun t => (t.a, t.pc)) { start 0x0200 [0xBD, 0xF0, 0x12] [(0x1310, 0x09)] with x := 0x20 } =
    some (0x09, 0x0203) := by decide
theorem test_A4 : cause { start 0x0200 [0xBD, 0xFF, 0xFF] with x := 1 } = some (.outOfRange 65536) := by decide
theorem test_A5 : cause { start 0x0200 [0xB9, 0x80, 0xFF] with y := 0x80 } = some (.outOfRange 65536) := by decide
theorem test_A6 : after (·.a) { start 0x0200 [0xB9, 0x80, 0xFF] [(0xFFFF, 0x5C)] with y := 0x7F } = some 0x5C := by decide
theorem test_A8 : after (·.a) { start 0x0200 [0xB5, 0xFF] [(0x0101, 0xAA), (0x0001, 0xBB)] with x := 2 } = some 0xAA := by decide
theorem test_A9 : after (·.x) { start 0x0200 [0xB6, 0x10] [(0x0015, 0x3C)] with y := 5 } = some 0x3C := by decide
theorem test_A11 : after (·.a) { start 0x0200 [0xA1, 0xFF] [(0x0100, 0x10), (0x0101, 0x20), (0x2010, 0x66)] with x := 1 } =
    some 0x66 := by decide
theorem test_A12 : after (·.a) { start 0x0200 [0xB1, 0x20] [(0x0020, 0xF8), (0x0021, 0x12), (0x1308, 0x4D)] with y := 0x10 } =
    some 0x4D := by decide
theorem test_A13 : cause { start 0x0200 [0xB1, 0x20] [(0x0020, 0xFF), (0x0021, 0xFF)] with y := 1 } =
    some (.outOfRange 65536) := by decide
theorem test_A14 : after (·.a) (start 0x0200 [0xB1, 0xFF] [(0x00FF, 0x34), (0x0100, 0x12), (0x1234, 0x77)]) = some 0x77 := by
  decide
theorem test_A15 : cause (start 0x0200 [0x6C, 0xFF, 0xFF]) = some (.outOfRange 65536) := by decide
theorem test_A16 : after (·.pc) (start 0x0200 [0x6C, 0xFF, 0x02] [(0x0300, 0x40)]) = some 0x4000 := by decide
theorem test_A19 : cause (start 0x0010 [0xF0, 0x80]) = some (.outOfRange (-111)) := by decide
theorem test_A20 : cause (start 0xFFF0 [0xF0, 0x7F]) = some (.outOfRange 65648) := by decide
theorem test_A21 : after (fun t => (t.a, t.pc)) (start 0xFFFF [0xA9, 0x99]) = some (0x99, 0x0001) := by decide
theorem test_A23 : cause (start 0x0200 [0xEA]) = some (.unsupportedInstruction (.opcode 0xEA 0x0200)) := by decide

/-! The reads of A4, A10, A15, A19 and A23, in order. -/

theorem test_reads_indexed : stepTransactions { start 0x0200 [0xBD, 0xFF, 0xFF] with x := 1 } =
    [.read 0x0200, .read 0x0201, .read 0x0202, .read 65536] := by decide
theorem test_reads_pointer :
    stepTransactions { start 0x0200 [0xA1, 0x20] [(0x0025, 0x30), (0x3000, 0xAB)] with x := 4 } =
      [.read 0x0200, .read 0x0201, .read 0x0024, .read 0x0025, .read 0x3000] := by decide
theorem test_reads_indirect : stepTransactions (start 0x0200 [0x6C, 0xFF, 0xFF]) =
    [.read 0x0200, .read 0x0201, .read 0x0202, .read 0xFFFF, .read 65536] := by decide
theorem test_reads_branch : stepTransactions (start 0x0010 [0xF0, 0x80]) = [.read 0x0010, .read 0x0011, .read (-111)] := by decide
theorem test_reads_unsupported : stepTransactions (start 0x0200 [0xEA]) = [.read 0x0200] := by decide

/-! ### 2.2: load, transfer, store -/

theorem test_L2 : after (fun t => (t.a, t.flags.n)) (start 0x0200 [0xA9, 0x80]) = some (0x80, false) := by decide
theorem test_L3 : after (·.x) { start 0x0200 [0xA2, 0x05] with x := 0xFF } = some 0x05 := by decide
theorem test_L4 : after (·.y) (start 0x0200 [0xAC, 0x00, 0x03] [(0x0300, 0x7E)]) = some 0x7E := by decide
theorem test_L5 : after (fun t => (t.x, t.a, t.pc)) { start 0x0200 [0xAA] with a := 0x7F } = some (0x7F, 0x7F, 0x0201) := by decide
theorem test_L6 : after (fun t => (t.a, t.flags.n)) { start 0x0200 [0x8A] with x := 0x80, a := 1 } = some (0x80, false) := by
  decide
theorem test_L7 : after (fun t => (t.y, t.flags.z)) { start 0x0200 [0xA8] with y := 9 } = some (0x00, false) := by decide
theorem test_L8 : after (·.a) { start 0x0200 [0x98] with y := 0x33 } = some 0x33 := by decide
theorem test_L9 : stepTransactions { start 0x0300 [0x8D, 0x00, 0x02] with a := 0x5A } =
    [.read 0x0300, .read 0x0301, .read 0x0302, .read 0x0200, .write 0x0200 0x5A] := by decide
theorem test_L10 : after (fun t => Memory.read t.mem 0x0101) { start 0x0200 [0x95, 0xFE] with a := 0x11, x := 3 } = some 0x11 := by
  decide
theorem test_L11 : cause { start 0x0200 [0x9D, 0xFF, 0xFF] with a := 0x22, x := 1 } = some (.outOfRange 65536) := by decide
theorem test_L12 : after (fun t => Memory.read t.mem 0x0302)
    { start 0x0200 [0x91, 0x10] [(0x0011, 0x03)] with a := 0x33, y := 2 } = some 0x33 := by decide
theorem test_L13 : after (fun t => Memory.read t.mem 0x0400)
    { start 0x0200 [0x81, 0x10] [(0x0013, 0x04)] with a := 0x44, x := 2 } = some 0x44 := by decide
theorem test_L14 : ((next? (step { start 0xC000 [0x8D, 0x04, 0xC0, 0xA2, 0x00] with a := 0x07 })).bind fun t => after (·.x) t) =
    some 0x07 := by decide

/-! ### 2.3: ALU and flags -/

theorem test_AL1 : after (fun t => (t.flags, t.pc)) { start 0x0200 [0x18] with flags := ⟨true, true, true, true, true, true⟩ } =
    some (⟨true, true, false, true, true, true⟩, 0x0201) := by decide
theorem test_AL5 : after (fun t => (t.a, t.flags.c)) { start 0x0200 [0x69, 0x20] with a := 0xF0, flags := ⟨false, false, true, false, false, false⟩ } =
    some (0x10, true) := by decide
theorem test_AL4 : after (fun t => (t.a, t.flags)) { start 0x0200 [0x69, 0x01] with a := 0xFF } =
    some (0x00, ⟨false, false, false, false, false, false⟩) := by decide
theorem test_AL10 : after (·.flags) { start 0x0200 [0xC9, 0x03] with a := 3, flags := ⟨true, false, true, false, false, false⟩ } =
    some ⟨false, true, true, false, false, false⟩ := by decide
theorem test_AL13 : after (fun t => (t.flags.n, t.flags.z)) { start 0x0200 [0xC9, 0x00] with a := 0x80 } = some (false, false) := by
  decide
theorem test_AL14 : after (fun t => (t.flags.n, t.flags.z)) (start 0x0200 [0xC9, 0xFF]) = some (true, false) := by decide
theorem test_AL16 : after (fun t => (t.flags.n, t.flags.z)) (start 0x0200 [0xE0, 0x03]) = some (true, false) := by decide
theorem test_AL18 : after (fun t => (t.flags.n, t.flags.z)) { start 0x0200 [0xC4, 0x50] [(0x0050, 0x10)] with y := 0x10 } =
    some (false, true) := by decide
theorem test_AL19 : after (fun t => (t.flags.n, t.flags.z)) (start 0x0200 [0xCC, 0x00, 0x10] [(0x1000, 0x01)]) =
    some (true, false) := by decide

/-! ### 2.4 to 2.6: branch, counts, jump, call, halt -/

/-- All flags false but Z. -/
def zeroSet : Flags := ⟨false, true, false, false, false, false⟩

theorem test_B1 : after (·.pc) { start 0xC004 [0xF0, 0x01] with flags := zeroSet } = some 0xC007 := by decide
theorem test_B2 : after (·.pc) (start 0xC004 [0xF0, 0x01]) = some 0xC006 := by decide
theorem test_B4 : after (·.pc) { start 0xC004 [0xF0, 0xFE] with flags := zeroSet } = some 0xC004 := by decide
theorem test_A25 : after (·.pc) { start 0xFFFD [0xF0, 0x01] with flags := zeroSet } = some 0x0000 := by decide
theorem test_I2 : after (fun t => (t.x, t.flags.z)) { start 0x0200 [0xE8] with x := 0xFF } = some (0x00, false) := by decide
theorem test_I4 : after (fun t => (t.x, t.flags.n)) (start 0x0200 [0xCA]) = some (0xFF, false) := by decide
theorem test_I6 : after (·.y) { start 0x0200 [0xC8] with y := 0x7F } = some 0x80 := by decide
theorem test_I7 : after (·.y) (start 0x0200 [0x88]) = some 0xFF := by decide
theorem test_J1 : after (·.pc) (start 0xC00C [0x4C, 0x04, 0xC0]) = some 0xC004 := by decide
theorem test_J3 : after (·.pc) (start 0x0200 [0x6C, 0x00, 0x03] [(0x0300, 0x34), (0x0301, 0x12)]) = some 0x1234 := by decide
theorem test_J4 : after (fun t => (t.console, t.pc, t.a)) { start 0xC002 [0x20, 0xD2, 0xFF] with a := 0x41 } =
    some ([0x41], 0xC005, 0x41) := by decide
theorem test_J6 : step (start 0xC000 [0x20, 0x00, 0x10]) =
    .fault (.unsupportedInstruction (.jsrTarget 0x1000) { start 0xC000 [0x20, 0x00, 0x10] with pc := 0xC003, status := .aborted }) := by
  rfl
theorem test_J7 : after (fun t => (t.pc, t.console)) (start 0xC000 [0x4C, 0xD2, 0xFF]) = some (0xFFD2, []) := by decide
theorem test_J8 : after (fun t => (t.pc, t.status, t.flags.b, t.flags.i)) (start 0xC005 [0x00]) =
    some (0xC006, .halted, false, false) := by decide
theorem test_J9 : after (fun t => (t.pc, t.status)) (start 0xFFFF []) = some (0x0000, .halted) := by decide

/-- R57: forms the spec shows, as text. -/
theorem test_text : instrText (.ldaIzy 0x10) = "LDA ($10),Y" ∧ instrText (.staAbs 0x0200) = "STA $0200" ∧
    instrText (.ldxImm 0x05) = "LDX #$05" ∧ instrText .dex = "DEX" := by decide

/-! ### Witnesses: a state and operands that meet the hypotheses of each statement, clause by clause at the boundaries -/

theorem test_witness_EncodeRebuildsDecodedBytes : decode [0xBD, 0xFF, 0xFF, 0x07] = .ok (.ldaAbx 0xFFFF, [0x07]) := by decide

theorem test_witness_FirstByteDecidesLength :
    decode (0xAD :: [0x00, 0x02]) = .ok (.ldaAbs 0x0200, []) ∧ decode (0xAD :: [0xFF, 0xFF, 0x01]) = .ok (.ldaAbs 0xFFFF, [0x01]) := by
  decide

theorem test_witness_RawInstructionsAreTheInstructions :
    RawInstr.wf ⟨.sta, .izy, 255⟩ = true ∧ RawInstr.wf ⟨.jsr, .abs, 0⟩ = true := by decide

theorem test_witness_OperandBytesAssembleLittleEndian :
    (decode [0xAA, 1, 2] = .ok (.tax, [1, 2]) ∧ Instr.operandBytes .tax = 0) ∧
    (decode [0xF0, 0x80, 2] = .ok (.beqRel 0x80, [2]) ∧ Instr.operandBytes (.beqRel 0x80) = 1) ∧
    (decode [0x4C, 0xFF, 0x01] = .ok (.jmpAbs 0x01FF, []) ∧ Instr.operandBytes (.jmpAbs 0x01FF) = 2) ∧
    sext8 0x80 = -128 ∧ sext8 0xFF = -1 ∧ sext8 0x7F = 127 ∧ sext8 0x00 = 0 := by decide

theorem test_witness_StepRunsTheDecodedInstruction :
    (start 0xFFFF [0xA9, 0x99]).status = .running ∧ decode (fetchBytes (start 0xFFFF [0xA9, 0x99])) = .ok (.ldaImm 0x99, []) := by
  decide

theorem test_witness_StepRunsTheBytesAtPc :
    let s := start 0xFFFF [0xAD, 0x34, 0x12]
    s.status = .running ∧
    ∀ (k : Nat) (b : Byte), (encode (.ldaAbs 0x1234))[k]? = some b → Memory.read s.mem ((s.pc.toNat + k) % 65536) = b := by
  refine ⟨rfl, ?_⟩
  intro k b h
  match k, h with
  | 0, h => exact Option.some.inj h
  | 1, h => exact Option.some.inj h
  | 2, h => exact Option.some.inj h
  | k + 3, h => cases h

theorem test_witness_UnsupportedOpcodeStopsAtLookup :
    (start 0x0200 [0xEA]).status = .running ∧
    ∀ i : Instr, (encode i).head? ≠ some (Memory.read (start 0x0200 [0xEA]).mem (start 0x0200 [0xEA]).pc.toNat) := by
  refine ⟨rfl, fun i => ?_⟩
  have byte : Memory.read (start 0x0200 [0xEA]).mem (start 0x0200 [0xEA]).pc.toNat = 0xEA := by decide
  rw [byte]
  cases i <;> simp [encode]

theorem test_witness_EndedRunStaysAsItIs :
    { start 0 [] with status := .halted }.status ≠ .running ∧ { start 0 [] with status := .aborted }.status ≠ .running ∧
    (hostCreate 0xFFD2 resetInit 0).status ≠ .running := by decide

theorem test_witness_OnlyBrkHalts :
    (∃ t, step (start 0xC005 [0x00]) = .next t ∧ t.status = .halted) ∧
    (∃ t, step (start 0xC005 [0xE8]) = .next t ∧ t.status = .running) := ⟨⟨_, rfl, rfl⟩, ⟨_, rfl, rfl⟩⟩

theorem test_witness_UnwrittenMemoryHalts :
    (start 0xFFFF []).status = .running ∧ Memory.read (start 0xFFFF []).mem (start 0xFFFF []).pc.toNat = 0 := by decide

theorem test_witness_JumpToItselfNeverEnds :
    let s := start 0xC000 [0x4C, 0x00, 0xC0]
    s.status = .running ∧ Memory.read s.mem s.pc.toNat = 0x4C ∧
    (Memory.read s.mem ((s.pc.toNat + 1) % 65536)).toNat + 256 * (Memory.read s.mem ((s.pc.toNat + 2) % 65536)).toNat
      = s.pc.toNat := by decide

theorem test_witness_ReadGivesTheByteLastWritten :
    memRead [] 0 = .ok 0 ∧ memRead (cells [(65535, 0x5C)]) 65535 = .ok 0x5C ∧ memRead [] (-1) = .error (.outOfRange (-1)) ∧
    memRead [] 65536 = .error (.outOfRange 65536) ∧ Memory.wf (cells [(7, 1)]) = true ∧
    memWrite (cells [(7, 1)]) 65535 255 = .ok (cells [(7, 1), (65535, 255)]) := by decide

theorem test_witness_WriteStoresOrFails :
    Memory.wf [(7, 1)] = true ∧ memWrite [(7, 1)] 7 0 = .ok [] ∧ memWrite [] 65535 255 = .ok [(65535, 255)] ∧
    memWrite [] 0 255 = .ok [(0, 255)] ∧ memWrite [] 65535 256 = .error (.invalidValue 256) ∧
    memWrite [] 0 (-1) = .error (.invalidValue (-1)) ∧ memWrite [] 65536 255 = .error (.outOfRange 65536) ∧
    memWrite [] (-1) 0 = .error (.outOfRange (-1)) := by decide

theorem test_witness_WriteStoresOrFails_both_bad : ((65536 : Int) < 0 ∨ (65536 : Int) ≤ 65536) ∧ ((256 : Int) < 0 ∨ (256 : Int) ≤ 256) := by
  decide

theorem test_witness_CanonicalMemoriesAreEqual :
    Memory.wf (cells [(65535, 1), (0, 2), (0, 0)]) = true ∧ Memory.wf (cells [(65535, 1)]) = true ∧
    cells [(65535, 1), (0, 2), (0, 0)] = cells [(65535, 1)] := by decide

theorem test_wf_memory_refuses :
    Memory.wf [(1, 0)] = false ∧ Memory.wf [(2, 1), (1, 1)] = false ∧ Memory.wf [(65536, 1)] = false ∧
    Memory.wf [(1, 1), (1, 2)] = false := by decide

theorem test_witness_StepKeepsMemoryCanonical :
    (MemCanonical (start 0x0200 [0x85, 0x10]) ∧ ∃ t, step (start 0x0200 [0x85, 0x10]) = .next t) ∧
    (MemCanonical (start 0x0200 [0xEA]) ∧ ∃ f, step (start 0x0200 [0xEA]) = .fault f) :=
  ⟨⟨by unfold MemCanonical; decide, _, rfl⟩, ⟨by unfold MemCanonical; decide, _, rfl⟩⟩

theorem test_witness_StepKeepsSignZeroExclusive :
    SignZeroExclusive (start 0x0200 [0xC9, 0x00]) ∧ ∃ t, step (start 0x0200 [0xC9, 0x00]) = .next t ∧ t.flags.z = true :=
  ⟨by unfold SignZeroExclusive; decide, _, rfl, rfl⟩

theorem test_witness_FaultsArePrecise :
    cause (start 0x0200 [0x02]) = some (.unsupportedInstruction (.opcode 0x02 0x0200)) ∧
    cause (start 0xC000 [0x20, 0x00, 0x10]) = some (.unsupportedInstruction (.jsrTarget 0x1000)) ∧
    cause { start 0x0200 [0x7D, 0xFF, 0xFF] with x := 1 } = some (.outOfRange 65536) := by decide

/-- OutOfRange in each of the five modes, below and above the space in Relative. -/
theorem test_witness_OutOfRangeOnlyFromFiveModes :
    faultCause? (exec (.ldyAbx 0xFFFF) { start 0 [] with x := 1 }) = some (.outOfRange 65536) ∧
    faultCause? (exec (.ldxAby 0xFFFF) { start 0 [] with y := 1 }) = some (.outOfRange 65536) ∧
    faultCause? (exec (.cmpIzy 0x10) { start 0 [] [(0x10, 0xFF), (0x11, 0xFF)] with y := 1 }) = some (.outOfRange 65536) ∧
    faultCause? (exec (.beqRel 0x80) (start 0x007E [])) = some (.outOfRange (-1)) ∧
    faultCause? (exec (.beqRel 0x7F) (start 0xFF80 [])) = some (.outOfRange 65536) ∧
    faultCause? (exec (.jmpInd 0xFFFF) (start 0 [])) = some (.outOfRange 65536) := by decide

theorem test_witness_UnwrittenStateKeepsItsLaunchValue :
    (∃ t, runFor 2 (start 0x0200 [0xE8, 0x00]) = .next t ∧ t.status = .halted) ∧
    (∃ f, runFor 2 (start 0x0200 [0xE8, 0xEA]) = .fault f) := ⟨⟨_, rfl, rfl⟩, ⟨_, rfl⟩⟩

theorem test_witness_UnreadStateHasNoInfluence :
    (SameReadable (start 0x0200 [0x18]) { start 0x0200 [0x18] with sp := 0xFD, flags := ⟨true, false, true, true, true, true⟩ } ∧
      ∃ t, step (start 0x0200 [0x18]) = .next t) ∧
    (SameReadable (start 0x0200 [0xEA]) { start 0x0200 [0xEA] with sp := 1 } ∧ ∃ f, step (start 0x0200 [0xEA]) = .fault f) :=
  ⟨⟨by unfold SameReadable; decide, _, rfl⟩, ⟨by unfold SameReadable; decide, _, rfl⟩⟩

theorem test_witness_CarryIsNeverSet :
    ∃ t, runFor 1 { start 0x0200 [0x69, 0xFF] with a := 1, flags := ⟨false, false, true, false, false, false⟩ } = .next t ∧
      t.flags.c = true := ⟨_, rfl, rfl⟩

theorem test_witness_ConsoleGrowsByThePrintCallOnly :
    (∃ t, exec (.jsrAbs 0xFFD2) { start 0 [] with a := 0x41 } = .next t ∧ t.console = [0x41]) ∧
    (∃ t, exec (.jmpAbs 0xFFD2) { start 0 [] with a := 0x41 } = .next t ∧ t.console = []) := ⟨⟨_, rfl, rfl⟩, ⟨_, rfl, rfl⟩⟩

theorem test_witness_TransactionsAccountForTheResult :
    faultCause? (exec (.adcIzy 0xFF) { start 0 [] [(0x00FF, 0xFF), (0x0100, 0xFF)] with y := 1 }) = some (.outOfRange 65536) ∧
    (next? (exec (.staZp 0x10) { start 0 [] with a := 5 })).map (·.mem) = some [(0x10, 5)] := by decide

/-- An instruction of every mode; the sums at 65535 and 65536, the pointer at 65534 and 65535. -/
theorem test_witness_ModesIssueTheListedTransactions :
    Instr.form .brk = .imp ∧ (Instr.ldaImm 0xFF).form = .imm 0xFF ∧ (Instr.jsrAbs 0xFFD2).form = .mem (.abs 0xFFD2) ∧
    (Instr.staAbx 0xFFFF).form = .mem (.abx 0xFFFF) ∧ (Instr.staAby 0xFFFF).form = .mem (.aby 0xFFFF) ∧
    (Instr.staZp 0xFF).form = .mem (.zp 0xFF) ∧ (Instr.staZpx 0xFF).form = .mem (.zpx 0xFF) ∧
    (Instr.ldxZpy 0xFF).form = .mem (.zpy 0xFF) ∧ (Instr.beqRel 0x80).form = .mem (.rel 0x80) ∧
    (Instr.jmpInd 0xFFFE).form = .mem (.ind 0xFFFE) ∧ (Instr.jmpInd 0xFFFF).form = .mem (.ind 0xFFFF) ∧
    (Instr.staIzx 0xFF).form = .mem (.izx 0xFF) ∧ (Instr.staIzy 0xFF).form = .mem (.izy 0xFF) := by decide

/-- The transactions R44's table and vectors J1, J3, A9, A17 list, for modes no test above shows. -/
theorem test_transactions :
    transactions (.staAbx 0xFFFE) { start 0x0200 [] with a := 7, x := 1 } =
      [.read 0x0200, .read 0x0201, .read 0x0202, .read 65535, .write 65535 7] ∧
    transactions (.staAby 0xFFFF) { start 0x0200 [] with a := 7, y := 1 } =
      [.read 0x0200, .read 0x0201, .read 0x0202, .read 65536] ∧
    transactions (.ldxZpy 0x10) { start 0x0200 [] with y := 5 } = [.read 0x0200, .read 0x0201, .read 0x0015] ∧
    transactions (.beqRel 0x80) (start 0x0200 []) = [.read 0x0200, .read 0x0201, .read 0x0181] ∧
    transactions (.jmpInd 0x0300) (start 0x0200 [] [(0x0300, 0x34), (0x0301, 0x12)]) =
      [.read 0x0200, .read 0x0201, .read 0x0202, .read 0x0300, .read 0x0301, .read 0x1234] ∧
    transactions (.jsrAbs 0xFFD2) { start 0xC002 [] with a := 0x41 } =
      [.read 0xC002, .read 0xC003, .read 0xC004, .read 0xFFD2, .console 0x41] := by decide

theorem test_witness_AccumulatorModeIsUnused : decode [0x88, 0x0A] = .ok (.dey, [0x0A]) ∧ Instr.mode .dey ≠ .acc := by decide

theorem test_witness_ImmediateGivesTheOperandByte : (Instr.cpyImm 0xFF).form = .imm 0xFF := rfl

theorem test_witness_AbsoluteAndZeroPageAddressTheirData :
    (Instr.staAbs 0xFFFF).form = .mem (.abs 0xFFFF) ∧ (Instr.adcZp 0xFF).form = .mem (.zp 0xFF) := ⟨rfl, rfl⟩

theorem test_witness_AbsoluteXDoesNotWrap :
    (let s := { start 0 [] with x := 0xFF }; (0xFF00 : Word).toNat + s.x.toNat = 65535) ∧
    (let s := { start 0 [] with x := 0xFF }; (0xFF01 : Word).toNat + s.x.toNat = 65536) ∧
    (Instr.staAbx 0xFF01).form = .mem (.abx 0xFF01) := by decide

theorem test_witness_IndexedModesAddressTheirSums :
    (let s := { start 0 [] [(0x20, 0x80), (0x21, 0xFF)] with y := 0x7F };
      (0xFF80 : Word).toNat + s.y.toNat = 65535 ∧ wordAt s.mem (0x20 : Byte).toNat + s.y.toNat = 65535) ∧
    (let s := { start 0 [] [(0x20, 0x80), (0x21, 0xFF)] with y := 0x80 };
      (0xFF80 : Word).toNat + s.y.toNat = 65536 ∧ wordAt s.mem (0x20 : Byte).toNat + s.y.toNat = 65536) := by decide

/-- Both sides of every range clause of the load, add and compare statements: 65535 is read, 65536 faults. -/
theorem test_witness_LdaLoadsTheAccumulator :
    (next? (exec (.ldaAbx 0xFFFE) { start 0 [] [(0xFFFF, 0x5C)] with x := 1 })).map (·.a) = some 0x5C ∧
    faultCause? (exec (.ldaAbx 0xFFFF) { start 0 [] with x := 1 }) = some (.outOfRange 65536) ∧
    (next? (exec (.ldaAby 0xFFFE) { start 0 [] [(0xFFFF, 0x5C)] with y := 1 })).map (·.a) = some 0x5C ∧
    faultCause? (exec (.ldaAby 0xFFFF) { start 0 [] with y := 1 }) = some (.outOfRange 65536) ∧
    (next? (exec (.ldaIzy 0x20) { start 0 [] [(0x20, 0xFE), (0x21, 0xFF), (0xFFFF, 0x5C)] with y := 1 })).map (·.a) = some 0x5C ∧
    faultCause? (exec (.ldaIzy 0x20) { start 0 [] [(0x20, 0xFE), (0x21, 0xFF)] with y := 2 }) = some (.outOfRange 65536) := by decide

theorem test_witness_LdxAndLdyLoadTheirRegister :
    (next? (exec (.ldxAby 0xFFFE) { start 0 [] [(0xFFFF, 0x5C)] with y := 1 })).map (·.x) = some 0x5C ∧
    faultCause? (exec (.ldxAby 0xFFFF) { start 0 [] with y := 1 }) = some (.outOfRange 65536) ∧
    (next? (exec (.ldyAbx 0xFFFE) { start 0 [] [(0xFFFF, 0x5C)] with x := 1 })).map (·.y) = some 0x5C ∧
    faultCause? (exec (.ldyAbx 0xFFFF) { start 0 [] with x := 1 }) = some (.outOfRange 65536) := by decide

theorem test_witness_StaStoresTheAccumulator :
    MemCanonical (start 0 [] [(0x20, 0xFE), (0x21, 0xFF)]) ∧
    (next? (exec (.staAbx 0xFFFE) { start 0 [] with a := 7, x := 1 })).map (·.mem) = some [(65535, 7)] ∧
    faultCause? (exec (.staAbx 0xFFFF) { start 0 [] with a := 7, x := 1 }) = some (.outOfRange 65536) ∧
    (next? (exec (.staAby 0xFFFE) { start 0 [] with a := 7, y := 1 })).map (·.mem) = some [(65535, 7)] ∧
    faultCause? (exec (.staAby 0xFFFF) { start 0 [] with a := 7, y := 1 }) = some (.outOfRange 65536) ∧
    (next? (exec (.staIzy 0x20) { start 0 [] [(0x20, 0xFE), (0x21, 0xFF)] with a := 7, y := 1 })).map
      (fun t => Memory.read t.mem 65535) = some 7 ∧
    faultCause? (exec (.staIzy 0x20) { start 0 [] [(0x20, 0xFE), (0x21, 0xFF)] with a := 7, y := 2 }) = some (.outOfRange 65536) := by
  unfold MemCanonical
  decide

theorem test_witness_AdcAddsWithoutCarry :
    (next? (exec (.adcAbx 0xFFFE) { start 0 [] [(0xFFFF, 0xFF)] with a := 0xFF, x := 1 })).map (·.a) = some 0xFE ∧
    faultCause? (exec (.adcAbx 0xFFFF) { start 0 [] with x := 1 }) = some (.outOfRange 65536) ∧
    (next? (exec (.adcAby 0xFFFE) { start 0 [] [(0xFFFF, 2)] with a := 1, y := 1 })).map (·.a) = some 3 ∧
    faultCause? (exec (.adcAby 0xFFFF) { start 0 [] with y := 1 }) = some (.outOfRange 65536) ∧
    (next? (exec (.adcIzy 0x20) { start 0 [] [(0x20, 0xFE), (0x21, 0xFF), (0xFFFF, 2)] with a := 1, y := 1 })).map (·.a) = some 3 ∧
    faultCause? (exec (.adcIzy 0x20) { start 0 [] [(0x20, 0xFE), (0x21, 0xFF)] with y := 2 }) = some (.outOfRange 65536) := by decide

theorem test_witness_CmpComparesTheAccumulator :
    (next? (exec (.cmpAbx 0xFFFE) { start 0 [] [(0xFFFF, 2)] with a := 1, x := 1 })).map (·.flags.n) = some true ∧
    faultCause? (exec (.cmpAbx 0xFFFF) { start 0 [] with x := 1 }) = some (.outOfRange 65536) ∧
    (next? (exec (.cmpAby 0xFFFE) { start 0 [] [(0xFFFF, 2)] with a := 2, y := 1 })).map (·.flags.z) = some true ∧
    faultCause? (exec (.cmpAby 0xFFFF) { start 0 [] with y := 1 }) = some (.outOfRange 65536) ∧
    (next? (exec (.cmpIzy 0x20) { start 0 [] [(0x20, 0xFE), (0x21, 0xFF), (0xFFFF, 2)] with a := 2, y := 1 })).map (·.flags.z) =
      some true ∧
    faultCause? (exec (.cmpIzy 0x20) { start 0 [] [(0x20, 0xFE), (0x21, 0xFF)] with y := 2 }) = some (.outOfRange 65536) := by decide

theorem test_witness_CompareSetsSignAndZeroOfTheDifference :
    (∃ t, exec (.cmpImm 3) { start 0 [] with a := 3 } = .next t) ∧ (∃ t, exec (.cpxZp 3) (start 0 []) = .next t) ∧
    (∃ t, exec (.cpyAbs 3) (start 0 []) = .next t) := ⟨⟨_, rfl⟩, ⟨_, rfl⟩, ⟨_, rfl⟩⟩

/-- The resolved address at 0 and at 65535, at -1 and at 65536, taken and not taken. -/
theorem test_witness_BeqBranchesOnZero :
    (next? (exec (.beqRel 0x80) { start 0x007F [] with flags := zeroSet })).map (·.pc) = some 0x0001 ∧
    (next? (exec (.beqRel 0x7F) { start 0xFF7F [] with flags := zeroSet })).map (·.pc) = some 0x0000 ∧
    (next? (exec (.beqRel 0x80) (start 0x007F []))).map (·.pc) = some 0x0081 ∧
    (next? (exec (.beqRel 0x00) (start 0xFFFF []))).map (·.pc) = some 0x0001 ∧
    faultCause? (exec (.beqRel 0x80) { start 0x007E [] with flags := zeroSet }) = some (.outOfRange (-1)) ∧
    faultCause? (exec (.beqRel 0x7F) (start 0xFF80 [])) = some (.outOfRange 65536) := by decide

theorem test_witness_JmpGoesToItsAddress :
    (next? (exec (.jmpInd 0xFFFE) (start 0 [] [(0xFFFE, 0x34), (0xFFFF, 0x12)]))).map (·.pc) = some 0x1234 ∧
    faultCause? (exec (.jmpInd 0xFFFF) (start 0 [] [(0xFFFF, 0x12)])) = some (.outOfRange 65536) := by decide

theorem test_witness_JsrCallsThePrintAddressOnly : (0xFFD3 : Word) ≠ (start 0 []).printAddr := by decide

/-- One instruction outside every list of the frames' tables, and one inside each. -/
theorem test_witness_RegistersChangeOnlyWhereListed :
    (∃ t, exec .clc (start 0 []) = .next t) ∧ Instr.mnemonic .clc ∉ [.lda, .txa, .tya, .adc] ∧
    Instr.mnemonic .clc ∉ [.ldx, .tax, .inx, .dex] ∧ Instr.mnemonic .clc ∉ [.ldy, .tay, .iny, .dey] ∧
    Instr.mnemonic .clc ≠ .jsr ∧ Instr.mnemonic .clc ≠ .brk := ⟨⟨_, rfl⟩, by decide⟩

theorem test_witness_FlagsChangeOnlyWhereListed :
    (∃ t, exec (.ldaImm 0) (start 0 []) = .next t) ∧ Instr.mnemonic (.ldaImm 0) ∉ [.cmp, .cpx, .cpy] ∧
    Instr.mnemonic (.ldaImm 0) ≠ .clc := ⟨⟨_, rfl⟩, by decide⟩

theorem test_witness_OnlyTheStoredCellChanges :
    (∃ t, exec .inx (start 0 []) = .next t ∧ Instr.mnemonic .inx ≠ .sta) ∧
    (∃ t, exec (.staZp 0xFF) { start 0 [] with a := 1 } = .next t ∧ Instr.mnemonic (.staZp 0xFF) = .sta) :=
  ⟨⟨_, rfl, by decide⟩, ⟨_, rfl, rfl⟩⟩

theorem test_witness_PcAdvancesPastTheInstruction :
    ∃ t, exec (.ldaAbs 0x0200) (start 0xFFFE []) = .next t ∧ t.pc = 0x0001 ∧ Instr.mnemonic (.ldaAbs 0x0200) ≠ .beq ∧
      Instr.mnemonic (.ldaAbs 0x0200) ≠ .jmp := ⟨_, rfl, by decide⟩

theorem test_witness_StoreIsSeenByTheNextFetch :
    let s := { start 0xC000 [] with a := 7 }
    MemCanonical s ∧ resolve (Instr.staAbs 0xC004).form s = .ok (.memory 0xC004 0) ∧
    ∃ t, exec (.staAbs 0xC004) s = .next t ∧ fetchAddr t 1 = (0xC004 : Word).toNat :=
  ⟨by unfold MemCanonical; decide, by decide, _, rfl, by decide⟩

/-- Branches to both ends of the reach, and from the last address that has a next one. -/
theorem test_witness_AssembledBranchReachesItsTarget :
    branchOperand 0xC004 0xC007 = some 0x01 ∧ branchOperand 0x0200 0x0182 = some 0x80 ∧ branchOperand 0x0200 0x0281 = some 0x7F ∧
    branchOperand 0x0200 0x0282 = none ∧ branchOperand 0xFFFE 0xFFFF = some 0xFF ∧ branchOperand 0x0000 0x0001 = some 0xFF ∧
    zeroSet.z = true := by decide

/-- A state of each condition, and each move's clauses at the ends of their ranges. -/
theorem test_witness_HostMovesNeedNoRunInProgress :
    hostPeek (start 0 []) 0 = .error .runInProgress ∧
    hostPeek { start 0 [] [(65535, 9)] with status := .halted } 65535 = .ok 9 ∧
    hostPeek { start 0 [] with status := .aborted } 65536 = .error (.port (.outOfRange 65536)) ∧
    hostPeek { start 0 [] with status := .aborted } (-1) = .error (.port (.outOfRange (-1))) ∧
    hostPoke { start 0 [] with status := .halted } 65535 255 = .ok { start 0 [] [(65535, 255)] with status := .halted } ∧
    MemCanonical { start 0 [] with status := .halted } ∧
    hostPoke { start 0 [] with status := .halted } 5 256 = .error (.port (.invalidValue 256)) ∧
    hostPoke { start 0 [] with status := .halted } 65536 255 = .error (.port (.outOfRange 65536)) ∧
    hostLoad { start 0 [] with status := .halted } [0x00, 0xC0, 0xEA] = .ok { start 0 [] [(0xC000, 0xEA)] with status := .halted } ∧
    hostLoad { start 0 [] with status := .halted } [0x00] = .error .shortFile ∧
    hostRun { start 7 [] [(9, 9)] with a := 1, console := [2], status := .aborted } resetInit 5 = .ok (start 5 [] [(9, 9)]) := by
  unfold MemCanonical
  decide

theorem test_witness_HostMovesNeedNoRunInProgress_both_bad :
    { start 0 [] with status := .aborted }.status ≠ .running ∧ ((-1 : Int) < 0 ∨ (65536 : Int) ≤ -1) ∧
    ((-1 : Int) < 0 ∨ (256 : Int) ≤ -1) := by decide

/-- R170's table in order: create, load P1 of the vectors, poke, run; the first step runs the loaded LDA with the created X. -/
theorem test_host_before_launch :
    (((hostLoad (hostCreate 0xFFD2 { resetInit with x := 3 } 0) [0x00, 0xC0, 0xA9, 0x41, 0x20, 0xD2, 0xFF, 0x00]).bind
        fun s => hostPoke s 0xC001 0x42).bind fun s => hostRun s resetInit 0xC000).toOption.bind
      (after fun t => (t.a, t.x, t.pc)) = some (0x42, 3, 0xC002) := by decide

/-- The moves that belong to one end of a run only. -/
theorem test_host_wrong_time :
    hostInspect (hostCreate 0xFFD2 resetInit 0) = .error .notLaunched ∧
    hostInspect (start 0 []) = .error .runInProgress ∧ hostAttachConsole (start 0 []) = .error .runInProgress ∧
    hostAttachConsole { start 0 [] with status := .halted } = .error .alreadyLaunched := by decide

theorem test_witness_CreatedMachineIsSetUpThenLaunched :
    memWrite [] 65535 255 = .ok [(65535, 255)] ∧ loadFile [] [0xFF, 0xFF, 0x07] = .ok [(65535, 7)] := by decide

/-- A file that ends at 65535, and one a byte longer. -/
theorem test_witness_LoadedFileStandsContiguously :
    Memory.wf (cells [(3, 1)]) = true ∧
    loadFile (cells [(3, 1)]) [0xFE, 0xFF, 0xA9, 0x41] = .ok [(3, 1), (65534, 0xA9), (65535, 0x41)] ∧
    loadFile (cells [(3, 1)]) [0xFE, 0xFF, 0xA9, 0x41, 0x00] = .error (.port (.outOfRange 65536)) := by decide

end Sys2Proof.Tests
end

section
/-! What an instruction can answer: a next state, a fault of decode, or JSR's fault (spec/00_scope.md R7); and the registers'
frame (spec/10_state.md R10). -/

namespace Sys2Proof.Machine

/-! ### The three answers of an instruction -/

theorem onValue_answers (act : Byte → State → State) (o : Operand) (t : State) : ∃ u, onValue act o t = .next u := by
  cases o <;> exact ⟨_, rfl⟩

theorem onAddr_answers (act : Word → State → Result) {t : State} (answers : ∀ addr, ∃ u, act addr t = .next u) (o : Operand) :
    ∃ u, onAddr act o t = .next u := by
  cases o with
  | memory addr _ => exact answers addr
  | implied | accumulator _ | immediate _ => exact ⟨_, rfl⟩

/-- After decode only JSR can fault, and only at an address that is not PRINT_ADDR (R131, R143). -/
theorem executor_cases (mn : Mnemonic) (o : Operand) (t : State) :
    (∃ u, executor mn o t = .next u) ∨
    (∃ addr value, mn = .jsr ∧ o = .memory addr value ∧ addr ≠ t.printAddr ∧
      executor mn o t = raise (.unsupportedInstruction (.jsrTarget addr)) t) := by
  cases mn with
  | lda | ldx | ldy | adc | cmp | cpx | cpy => exact .inl (onValue_answers _ o t)
  | tax | txa | tay | tya | clc | inx | dex | iny | dey | brk => exact .inl ⟨_, rfl⟩
  | sta => exact .inl (onAddr_answers storeA (fun addr => ⟨_, storeA_eq addr t⟩) o)
  | beq => exact .inl (onAddr_answers branchIfZero (fun _ => ⟨_, rfl⟩) o)
  | jmp => exact .inl (onAddr_answers jumpTo (fun _ => ⟨_, rfl⟩) o)
  | jsr =>
    cases o with
    | implied | accumulator _ | immediate _ => exact .inl ⟨_, rfl⟩
    | memory addr value =>
      by_cases print : addr = t.printAddr
      · exact .inl ⟨_, print ▸ callPrint_print t⟩
      · exact .inr ⟨addr, value, rfl, rfl, print, callPrint_other print⟩

/-- Everything an instruction can answer: a next state, the first failed read of its decode (R87), or JSR's fault (R131). -/
theorem exec_cases (i : Instr) (s : State) :
    (∃ t, exec i s = .next t) ∨
    (∃ e, resolve i.form s = .error e ∧ exec i s = raiseInDecode e i.operandBytes s) ∨
    (∃ addr value, i.mnemonic = .jsr ∧ resolve i.form s = .ok (.memory addr value) ∧ addr ≠ s.printAddr ∧
      exec i s = raise (.unsupportedInstruction (.jsrTarget addr)) (s.advance (1 + i.operandBytes))) := by
  rw [exec_eq, decodeThen]
  cases hr : resolve i.form s with
  | error e => exact .inr (.inl ⟨e, rfl, rfl⟩)
  | ok o =>
    rcases executor_cases i.mnemonic o (s.advance (1 + i.operandBytes)) with next | ⟨addr, value, jsr, rfl, ne, he⟩
    · exact .inl next
    · exact .inr (.inr ⟨addr, value, jsr, rfl, ne, he⟩)

/-! ### No refusal -/

theorem raise_ne_refused (fault : State → Fault) (left : State) (r : Refusal) : raise fault left ≠ .refused r := nofun

theorem raisePort_ne_refused (e : PortError) (left : State) (r : Refusal) : raisePort e left ≠ .refused r := by
  cases e <;> exact raise_ne_refused _ _ _

theorem raiseInDecode_ne_refused (e : PortError) (n : Nat) (s : State) (r : Refusal) : raiseInDecode e n s ≠ .refused r :=
  raisePort_ne_refused _ _ _

theorem exec_ne_refused (i : Instr) (s : State) (r : Refusal) : exec i s ≠ .refused r := by
  rcases exec_cases i s with ⟨t, he⟩ | ⟨e, -, he⟩ | ⟨addr, value, -, -, -, he⟩ <;> rw [he]
  · nofun
  · exact raiseInDecode_ne_refused _ _ _ _
  · exact raise_ne_refused _ _ _

/-- Settles O26: a step is idle, faults at lookup, or runs an instruction, and no instruction is refused. -/
theorem noStepIsRefused : Obligations.NoStepIsRefused := by
  intro s r
  by_cases run : s.status = .running
  · cases f : fetch s with
    | none =>
      rw [step_running_none run f]
      exact raise_ne_refused _ _ _
    | some i =>
      rw [step_running_some run f]
      exact exec_ne_refused i s r
  · rw [step_idle run]
    nofun

/-! ### The frame of each effect (R10's table) -/

section
variable {mn : Mnemonic} {t u : State}

theorem Effect.a_unchanged (eff : Effect mn t u) (other : mn ∉ [.lda, .txa, .tya, .adc]) : u.a = t.a := by
  cases eff with
  | writesA v who => exact absurd who other
  | _ => rfl

theorem Effect.x_unchanged (eff : Effect mn t u) (other : mn ∉ [.ldx, .tax, .inx, .dex]) : u.x = t.x := by
  cases eff with
  | writesX v who => exact absurd who other
  | _ => rfl

theorem Effect.y_unchanged (eff : Effect mn t u) (other : mn ∉ [.ldy, .tay, .iny, .dey]) : u.y = t.y := by
  cases eff with
  | writesY v who => exact absurd who other
  | _ => rfl

theorem Effect.console_unchanged (eff : Effect mn t u) (other : mn ≠ .jsr) : u.console = t.console := by
  cases eff with
  | emits who => exact absurd who other
  | _ => rfl

theorem Effect.status_unchanged (eff : Effect mn t u) (other : mn ≠ .brk) : u.status = t.status := by
  cases eff with
  | halts who => exact absurd who other
  | _ => rfl

theorem Effect.sp_unchanged (eff : Effect mn t u) : u.sp = t.sp := by
  cases eff <;> rfl

theorem Effect.printAddr_unchanged (eff : Effect mn t u) : u.printAddr = t.printAddr := by
  cases eff <;> rfl

end

/-- Settles O52: the frame of the instruction's effect, from a state in which only the PC has been advanced. -/
theorem registersChangeOnlyWhereListed : Obligations.RegistersChangeOnlyWhereListed := by
  intro i s t h
  have eff := exec_effect h
  exact ⟨eff.a_unchanged, eff.x_unchanged, eff.y_unchanged, eff.console_unchanged, eff.status_unchanged,
    eff.sp_unchanged, eff.printAddr_unchanged⟩

end Sys2Proof.Machine
end

section
/-! The state's fields over one step and over runs (spec/10_state.md): what a launch gives them, the frame of the flags and of
the PC, the state a fault leaves, the invariants of every run, and what no instruction reads. -/

namespace Sys2Proof.Machine

/-! ### Launch and reset -/

/-- Settles O15 by the launch's lemma for each field. -/
theorem launchSetsItsParameters : Obligations.LaunchSetsItsParameters := by
  intro p init mem0 entryAddress
  simp

/-- Settles O16: reset is the launch its definition names, and empty memory reads 0 inside AddressSpace. -/
theorem resetIsALaunchOfEmptyMemory : Obligations.ResetIsALaunchOfEmptyMemory :=
  ⟨⟨resetPrintAddr, resetInit, resetEntry, rfl⟩, fun addr low high => memRead_ok ((inSpace_iff addr).2 ⟨low, high⟩)⟩

/-- Settles O17: empty memory is canonical. -/
theorem resetMemoryIsCanonical : Obligations.ResetMemoryIsCanonical := rfl

/-! ### Canonical memories are determined by what they read -/

theorem Memory.wfFrom_cons {low key : Nat} {value : Byte} {rest : Memory} :
    Memory.wfFrom low ((key, value) :: rest) = true ↔
      low ≤ key ∧ key < spaceSize ∧ value ≠ Memory.unlisted ∧ Memory.wfFrom (key + 1) rest = true := by
  simp only [Memory.wfFrom, Bool.and_eq_true, decide_eq_true_eq, and_assoc]

theorem Memory.read_head (key : Nat) (value : Byte) (rest : Memory) : Memory.read ((key, value) :: rest) key = value :=
  if_pos rfl

theorem Memory.read_tail {key addr : Nat} (value : Byte) (rest : Memory) (ne : key ≠ addr) :
    Memory.read ((key, value) :: rest) addr = Memory.read rest addr :=
  if_neg ne

/-- Where two canonical memories read the same, the first cell of one is not below the first cell of the other. -/
theorem Memory.first_le {low low' key key' : Nat} {value value' : Byte} {rest rest' : Memory}
    (wf : Memory.wfFrom low ((key, value) :: rest) = true) (wf' : Memory.wfFrom low' ((key', value') :: rest') = true)
    (same : ∀ addr, Memory.read ((key, value) :: rest) addr = Memory.read ((key', value') :: rest') addr) : key' ≤ key := by
  obtain ⟨-, -, listed, -⟩ := Memory.wfFrom_cons.1 wf
  obtain ⟨-, bound', listed', tail'⟩ := Memory.wfFrom_cons.1 wf'
  by_contra below
  have unlisted : Memory.read ((key', value') :: rest') key = Memory.unlisted :=
    Memory.read_below (Memory.wfFrom_cons.2 ⟨le_refl key', bound', listed', tail'⟩) (by omega)
  exact listed (Memory.read_head key value rest ▸ (same key).trans unlisted)

/-- A memory that reads as unlisted everywhere lists nothing. -/
theorem Memory.wfFrom_unlisted {low : Nat} {m : Memory} (wf : Memory.wfFrom low m = true)
    (unlisted : ∀ addr, Memory.read m addr = Memory.unlisted) : m = [] := by
  cases m with
  | nil => rfl
  | cons cell rest =>
    obtain ⟨key, value⟩ := cell
    obtain ⟨-, -, listed, -⟩ := Memory.wfFrom_cons.1 wf
    exact absurd (Memory.read_head key value rest ▸ unlisted key) listed

theorem Memory.wfFrom_ext {m : Memory} : ∀ {low : Nat} {m' : Memory}, Memory.wfFrom low m = true →
    Memory.wfFrom low m' = true → (∀ addr, Memory.read m addr = Memory.read m' addr) → m = m' := by
  induction m with
  | nil =>
    intro low m' _ wf' same
    exact (Memory.wfFrom_unlisted wf' fun addr => (same addr).symm).symm
  | cons cell rest ih =>
    intro low m' wf wf' same
    obtain ⟨key, value⟩ := cell
    cases m' with
    | nil => exact Memory.wfFrom_unlisted wf same
    | cons cell' rest' =>
      obtain ⟨key', value'⟩ := cell'
      have keys : key = key' := le_antisymm (Memory.first_le wf' wf fun addr => (same addr).symm) (Memory.first_le wf wf' same)
      subst keys
      have values : value = value' := by simpa only [Memory.read_head] using same key
      obtain ⟨-, -, -, tail⟩ := Memory.wfFrom_cons.1 wf
      obtain ⟨-, -, -, tail'⟩ := Memory.wfFrom_cons.1 wf'
      have rests : rest = rest' := ih tail tail' fun addr => by
        by_cases above : key < addr
        · simpa only [Memory.read_tail _ _ (ne_of_lt above)] using same addr
        · rw [Memory.read_below tail (by omega), Memory.read_below tail' (by omega)]
      rw [values, rests]

/-- Settles O20, by induction on the first memory's cells, the lowest address generalised. -/
theorem canonicalMemoriesAreEqual : Obligations.CanonicalMemoriesAreEqual :=
  fun _ _ => Memory.wfFrom_ext

/-! ### The frame of each effect: flags, PC, memory -/

section
variable {mn : Mnemonic} {t u : State}

theorem Effect.sign_zero_unchanged (eff : Effect mn t u) (other : mn ∉ [.cmp, .cpx, .cpy]) :
    u.flags.n = t.flags.n ∧ u.flags.z = t.flags.z := by
  cases eff with
  | compares reg value who => exact absurd who other
  | _ => exact ⟨rfl, rfl⟩

theorem Effect.carry_unchanged (eff : Effect mn t u) (other : mn ≠ .clc) : u.flags.c = t.flags.c := by
  cases eff with
  | clearsC who => exact absurd who other
  | _ => rfl

/-- CLC clears C and nothing else writes it (R20). -/
theorem Effect.carry_not_set (eff : Effect mn t u) (set : u.flags.c = true) : t.flags.c = true := by
  cases eff with
  | clearsC who => exact absurd set Bool.false_ne_true
  | _ => exact set

theorem Effect.decimal_unchanged (eff : Effect mn t u) : u.flags.d = t.flags.d := by
  cases eff <;> rfl

theorem Effect.interruptDisable_unchanged (eff : Effect mn t u) : u.flags.i = t.flags.i := by
  cases eff <;> rfl

theorem Effect.break_unchanged (eff : Effect mn t u) : u.flags.b = t.flags.b := by
  cases eff <;> rfl

theorem Effect.pc_unchanged (eff : Effect mn t u) (other : mn ∉ [.beq, .jmp]) : u.pc = t.pc := by
  cases eff with
  | jumps target who => exact absurd who other
  | _ => rfl

/-- STA stores through a 16-bit address, so inside AddressSpace; nothing else touches it. -/
theorem Effect.keeps_memCanonical (eff : Effect mn t u) (wf : MemCanonical t) : MemCanonical u := by
  cases eff with
  | stores addr who => exact Memory.wf_write wf addr.isLt t.a
  | _ => exact wf

end

/-- Settles O53: the flags' frame of the instruction's effect. -/
theorem flagsChangeOnlyWhereListed : Obligations.FlagsChangeOnlyWhereListed := by
  intro i s t h
  have eff := exec_effect h
  exact ⟨eff.sign_zero_unchanged, eff.carry_unchanged, eff.decimal_unchanged, eff.interruptDisable_unchanged,
    eff.break_unchanged⟩

/-- Settles O55: outside BEQ and JMP the effect leaves the PC where the advance past `1 + n` bytes has put it. -/
theorem pcAdvancesPastTheInstruction : Obligations.PcAdvancesPastTheInstruction := by
  intro i s t h notBeq notJmp
  have pc : t.pc = s.pc + BitVec.ofNat 16 (1 + i.operandBytes) := (exec_effect h).pc_unchanged (by simp [notBeq, notJmp])
  rw [pc, BitVec.toNat_add, BitVec.toNat_ofNat]
  omega

/-! ### The console -/

/-- A JSR resolves its own operand, which lies inside AddressSpace whatever it is, and hands it to the print call (R76, R131). -/
theorem exec_jsrAbs (w : Word) (s : State) : exec (.jsrAbs w) s = callPrint w (s.advance 3) := by
  have word : BitVec.ofInt 16 (w.toNat : Int) = w :=
    BitVec.eq_of_toNat_eq ((Word.ofInt_toNat (inSpace_word w)).trans (Int.toNat_natCast _))
  have resolved := resolveMem_ok (m := .abs w) (s := s) rfl (inSpace_word w)
  rw [word] at resolved
  exact execMemory_ok resolved

theorem eq_jsrAbs_of_mnemonic {i : Instr} (jsr : i.mnemonic = .jsr) : ∃ w, i = .jsrAbs w := by
  cases i with
  | jsrAbs w => exact ⟨w, rfl⟩
  | _ => cases jsr

/-- Settles O30: only JSR emits, and it goes on only where its operand is PRINT_ADDR. -/
theorem consoleGrowsByThePrintCallOnly : Obligations.ConsoleGrowsByThePrintCallOnly := by
  intro s t i h
  constructor
  · rintro rfl
    rw [exec_jsrAbs] at h
    rw [← callPrint_next h]
    rfl
  · intro other
    by_cases jsr : i.mnemonic = .jsr
    · obtain ⟨w, rfl⟩ := eq_jsrAbs_of_mnemonic jsr
      have ne : w ≠ (s.advance 3).printAddr := fun eq => other (congrArg Instr.jsrAbs eq)
      rw [exec_jsrAbs, callPrint_other ne] at h
      cases h
    · exact (exec_effect h).console_unchanged jsr

/-! ### The state a fault leaves (R147) -/

theorem raisePort_left {e : PortError} {left : State} {f : Fault} (h : raisePort e left = .fault f) :
    f.left = left.setStatus .aborted := by
  cases e <;> cases h <;> rfl

/-- A fault of an instruction leaves everything but the PC, which is one of P to P + 1 + n. -/
theorem exec_fault_left {i : Instr} {s : State} {f : Fault} (h : exec i s = .fault f) :
    ∃ k, k ≤ 1 + i.operandBytes ∧ f.left = (s.advance k).setStatus .aborted := by
  rcases exec_cases i s with ⟨t, he⟩ | ⟨e, -, he⟩ | ⟨addr, value, -, -, -, he⟩ <;> rw [he] at h
  · cases h
  · have bound : Config.outOfRangePcOffset s % (i.operandBytes + 2) < i.operandBytes + 2 := Nat.mod_lt _ (by omega)
    exact ⟨_, by omega, raisePort_left h⟩
  · cases h
    exact ⟨1 + i.operandBytes, le_refl _, rfl⟩

/-- A fault of a step leaves everything but the PC, and marks the run aborted. -/
theorem step_fault_left {s : State} {f : Fault} (h : step s = .fault f) :
    ∃ pc, f.left = (s.setPc pc).setStatus .aborted := by
  by_cases run : s.status = .running
  · cases found : fetch s with
    | none =>
      rw [step_running_none run found] at h
      cases h
      exact ⟨s.pc, rfl⟩
    | some i =>
      rw [step_running_some run found] at h
      obtain ⟨k, -, left⟩ := exec_fault_left h
      exact ⟨_, left⟩
  · rw [step_idle run] at h
    cases h

/-! ### Invariants of a step and of a run -/

/-- A step that goes on is idle, or has one effect after an advance of the PC. -/
theorem step_effect {s t : State} (h : step s = .next t) : t = s ∨ ∃ mn k, Effect mn (s.advance k) t := by
  rcases step_next h with ⟨-, idle⟩ | ⟨-, i, -, he⟩
  · exact .inl idle
  · exact .inr ⟨_, _, exec_effect he⟩

/-- Settles O21: a store keeps the form, every other effect and every fault leaves AddressSpace alone. -/
theorem stepKeepsMemoryCanonical : Obligations.StepKeepsMemoryCanonical := by
  intro s wf
  constructor
  · intro t h
    rcases step_effect h with rfl | ⟨mn, k, eff⟩
    · exact wf
    · exact eff.keeps_memCanonical wf
  · intro f h
    obtain ⟨pc, left⟩ := step_fault_left h
    rw [left]
    exact wf

/-- A run that ends in a fault has gone on to the state whose step raises it. -/
theorem runFor_fault {f : Fault} : ∀ {k : Nat} {s : State}, runFor k s = .fault f →
    ∃ j u, runFor j s = .next u ∧ step u = .fault f := by
  intro k
  induction k with
  | zero =>
    intro s h
    rw [runFor_zero] at h
    cases h
  | succ k ih =>
    intro s h
    cases hs : step s with
    | next t =>
      rw [runFor_succ_next hs] at h
      obtain ⟨j, u, reach, fault⟩ := ih h
      exact ⟨j + 1, u, (runFor_succ_next hs).trans reach, fault⟩
    | fault g =>
      rw [runFor_succ_fault hs] at h
      cases h
      exact ⟨0, s, runFor_zero s, hs⟩
    | refused r =>
      rw [runFor_succ_refused hs] at h
      cases h

/-- `t` agrees with `s` on what nothing writes: SP, D, I, B and PRINT_ADDR (R14, R21, R4). -/
def SameUnwritten (s t : State) : Prop :=
  t.sp = s.sp ∧ t.flags.d = s.flags.d ∧ t.flags.i = s.flags.i ∧ t.flags.b = s.flags.b ∧ t.printAddr = s.printAddr

theorem SameUnwritten.refl (s : State) : SameUnwritten s s := ⟨rfl, rfl, rfl, rfl, rfl⟩

theorem SameUnwritten.trans {s t u : State} (st : SameUnwritten s t) (tu : SameUnwritten t u) : SameUnwritten s u := by
  obtain ⟨sp, d, i, b, print⟩ := st
  obtain ⟨sp', d', i', b', print'⟩ := tu
  exact ⟨sp'.trans sp, d'.trans d, i'.trans i, b'.trans b, print'.trans print⟩

theorem step_next_sameUnwritten {s t : State} (h : step s = .next t) : SameUnwritten s t := by
  rcases step_effect h with rfl | ⟨mn, k, eff⟩
  · exact .refl _
  · exact ⟨eff.sp_unchanged, eff.decimal_unchanged, eff.interruptDisable_unchanged, eff.break_unchanged,
      eff.printAddr_unchanged⟩

theorem step_fault_sameUnwritten {s : State} {f : Fault} (h : step s = .fault f) : SameUnwritten s f.left := by
  obtain ⟨pc, left⟩ := step_fault_left h
  rw [left]
  exact .refl s

theorem runFor_next_sameUnwritten {k : Nat} {s t : State} (h : runFor k s = .next t) : SameUnwritten s t :=
  runFor_next_induction SameUnwritten.refl (fun _ _ _ => SameUnwritten.trans) (fun _ _ => step_next_sameUnwritten) k s t h

/-- Settles O27: every step keeps the five values, and so does the fault that ends a run. -/
theorem unwrittenStateKeepsItsLaunchValue : Obligations.UnwrittenStateKeepsItsLaunchValue := by
  rintro k s t (next | ⟨f, fault, rfl⟩)
  · exact runFor_next_sameUnwritten next
  · obtain ⟨j, u, reach, last⟩ := runFor_fault fault
    exact (runFor_next_sameUnwritten reach).trans (step_fault_sameUnwritten last)

theorem step_carry_not_set {s t : State} (h : step s = .next t) (set : t.flags.c = true) : s.flags.c = true := by
  rcases step_effect h with rfl | ⟨mn, k, eff⟩
  · exact set
  · exact eff.carry_not_set set

/-- Settles O29: no step sets C, so no run does. -/
theorem carryIsNeverSet : Obligations.CarryIsNeverSet :=
  runFor_next_induction (rel := fun s t => t.flags.c = true → s.flags.c = true) (fun _ => id)
    (fun _ _ _ st tu => st ∘ tu) fun _ _ => step_carry_not_set

/-! ### What no instruction reads

A state with SP, N, C, D, I and B erased steps as the state itself does, as far as these, the PC after a fault and the state a
fault leaves are not looked at. Two states that differ only there have one erased state in common. -/

/-- `s` with SP and the flags N, C, D, I, B erased. -/
def State.readable (s : State) : State := { s with sp := 0, flags := ⟨false, s.flags.z, false, false, false, false⟩ }

theorem sameReadable_iff {s t : State} : SameReadable s t ↔ s.readable = t.readable := by
  simp only [SameReadable, State.readable, State.mk.injEq, Flags.mk.injEq]
  tauto

/-- A result with the unread parts of a next state erased, and a fault's kind and info alone. -/
def observed : Result → Host.Outcome State FaultCause Refusal
  | .next t => .next t.readable
  | .fault f => .fault f.cause
  | .refused r => .refused r

theorem resolve_readable (form : OperandForm) (s : State) : resolve form s.readable = resolve form s := by
  cases form with
  | imp | acc | imm d => rfl
  | mem m => cases m <;> rfl

theorem observed_raisePort (e : PortError) (left left' : State) : observed (raisePort e left) = observed (raisePort e left') := by
  cases e <;> rfl

theorem observed_onValue {act : Byte → State → State} {t : State} (o : Operand)
    (commutes : ∀ v, (act v t.readable).readable = (act v t).readable) :
    observed (onValue act o t.readable) = observed (onValue act o t) := by
  cases o with
  | implied => rfl
  | accumulator v | immediate v | memory addr v => exact congrArg Host.Outcome.next (commutes v)

theorem observed_onAddr {act : Word → State → Result} {t : State} (o : Operand)
    (commutes : ∀ addr, observed (act addr t.readable) = observed (act addr t)) :
    observed (onAddr act o t.readable) = observed (onAddr act o t) := by
  cases o with
  | implied | accumulator v | immediate v => rfl
  | memory addr v => exact commutes addr

theorem observed_storeA (addr : Word) (t : State) : observed (storeA addr t.readable) = observed (storeA addr t) := by
  rw [storeA_eq, storeA_eq]
  rfl

/-- BEQ reads Z, which is not erased. -/
theorem observed_branchIfZero (addr : Word) (t : State) :
    observed (branchIfZero addr t.readable) = observed (branchIfZero addr t) := by
  have zero : t.readable.flags.z = t.flags.z := rfl
  unfold branchIfZero
  rw [zero]
  cases t.flags.z <;> rfl

theorem observed_callPrint (addr : Word) (t : State) : observed (callPrint addr t.readable) = observed (callPrint addr t) := by
  by_cases print : addr = t.printAddr
  · subst print
    exact (congrArg observed (callPrint_print t.readable)).trans (congrArg observed (callPrint_print t)).symm
  · rw [callPrint_other print, callPrint_other (s := t.readable) print]
    rfl

theorem observed_executor (mn : Mnemonic) (o : Operand) (t : State) :
    observed (executor mn o t.readable) = observed (executor mn o t) := by
  cases mn with
  | lda | ldx | ldy | adc | cmp | cpx | cpy => exact observed_onValue o fun _ => rfl
  | tax | txa | tay | tya | clc | inx | dex | iny | dey | brk => rfl
  | sta => exact observed_onAddr o fun addr => observed_storeA addr t
  | beq => exact observed_onAddr o fun addr => observed_branchIfZero addr t
  | jmp => exact observed_onAddr o fun _ => rfl
  | jsr => exact observed_onAddr o fun addr => observed_callPrint addr t

theorem observed_exec (i : Instr) (s : State) : observed (exec i s.readable) = observed (exec i s) := by
  rw [exec_eq, exec_eq, decodeThen, decodeThen, resolve_readable]
  cases resolve i.form s with
  | error e => exact observed_raisePort e _ _
  | ok o => exact observed_executor i.mnemonic o (s.advance (1 + i.form.mode.operandBytes))

theorem fetch_readable (s : State) : fetch s.readable = fetch s := rfl

theorem observed_step (s : State) : observed (step s.readable) = observed (step s) := by
  by_cases run : s.status = .running
  · have run' : s.readable.status = .running := run
    cases found : fetch s with
    | none =>
      rw [step_running_none run found, step_running_none run' found]
      rfl
    | some i =>
      rw [step_running_some run found, step_running_some run' found]
      exact observed_exec i s
  · have idle' : s.readable.status ≠ .running := run
    rw [step_idle run, step_idle idle']
    rfl

theorem observed_eq_next {r : Result} {t : State} (h : observed r = observed (.next t)) :
    ∃ t', r = .next t' ∧ SameReadable t t' := by
  cases r with
  | next t' => exact ⟨t', rfl, sameReadable_iff.2 (Host.Outcome.next.inj h).symm⟩
  | fault f => cases h
  | refused r => cases h

theorem observed_eq_fault {r : Result} {f : Fault} (h : observed r = observed (.fault f)) :
    ∃ f', r = .fault f' ∧ f'.cause = f.cause := by
  cases r with
  | next t => cases h
  | fault f' => exact ⟨f', rfl, Host.Outcome.fault.inj h⟩
  | refused r => cases h

/-- Settles O28: both states step as their common erased state does. -/
theorem unreadStateHasNoInfluence : Obligations.UnreadStateHasNoInfluence := by
  intro s s' same
  have steps : observed (step s') = observed (step s) := by
    rw [← observed_step s, sameReadable_iff.1 same, observed_step s']
  exact ⟨fun t h => observed_eq_next (h ▸ steps), fun f h => observed_eq_fault (h ▸ steps)⟩

end Sys2Proof.Machine
end

section
/-! AddressSpace (spec/20_memory.md): what the port answers, which reads a decode issues and how they settle its result, the
transactions of an instruction, and the one cell a store changes. -/

namespace Sys2Proof.Machine

/-! ### The ranges of the port -/

theorem inSpace_eq_false_iff (addr : Int) : inSpace addr = false ↔ addr < 0 ∨ 65536 ≤ addr := by
  rw [← Bool.not_eq_true, inSpace_iff]
  omega

theorem isByte_eq_false_iff (value : Int) : isByte value = false ↔ value < 0 ∨ 256 ≤ value := by
  rw [← Bool.not_eq_true, isByte_iff]
  omega

theorem inSpace_natCast (n : Nat) : inSpace (n : Int) = true ↔ n < 65536 := by
  rw [inSpace_iff]
  omega

/-! ### What a write answers (R31) -/

theorem memWrite_ok (m : Memory) {addr value : Int} (inside : inSpace addr = true) (byte : isByte value = true) :
    memWrite m addr value = .ok (Memory.write m addr.toNat (BitVec.ofInt 8 value)) := by
  simp only [memWrite, inside, byte, if_true]

theorem memWrite_bad_value (m : Memory) {addr value : Int} (inside : inSpace addr = true) (notByte : isByte value = false) :
    memWrite m addr value = .error (.invalidValue value) := by
  simp only [memWrite, inside, notByte, if_true, Bool.false_eq_true, if_false]

theorem memWrite_bad_addr (m : Memory) {addr value : Int} (outside : inSpace addr = false) (byte : isByte value = true) :
    memWrite m addr value = .error (.outOfRange addr) := by
  simp only [memWrite, outside, byte, if_true, Bool.false_eq_true, if_false]

/-- Which of the two errors is reported is a free value (U20, log 15). -/
theorem memWrite_both_bad (m : Memory) {addr value : Int} (outside : inSpace addr = false) (notByte : isByte value = false) :
    memWrite m addr value = .error (.invalidValue value) ∨ memWrite m addr value = .error (.outOfRange addr) := by
  simp only [memWrite, outside, notByte, Bool.false_eq_true, if_false]
  cases Config.badWriteReportsValue addr value with
  | true => exact .inl rfl
  | false => exact .inr rfl

/-- A write that succeeds had a good address and a good value. -/
theorem memWrite_eq_ok {m m' : Memory} {addr value : Int} (h : memWrite m addr value = .ok m') :
    inSpace addr = true ∧ m' = Memory.write m addr.toNat (BitVec.ofInt 8 value) := by
  cases inside : inSpace addr with
  | true =>
    cases byte : isByte value with
    | true =>
      rw [memWrite_ok m inside byte] at h
      exact ⟨rfl, (Except.ok.inj h).symm⟩
    | false =>
      rw [memWrite_bad_value m inside byte] at h
      cases h
  | false =>
    cases byte : isByte value with
    | true =>
      rw [memWrite_bad_addr m inside byte] at h
      cases h
    | false => rcases memWrite_both_bad m inside byte with e | e <;> rw [e] at h <;> cases h

/-! ### A read after a write (R30) -/

theorem memRead_write_same {m : Memory} (wf : Memory.wf m = true) {addr : Int} (inside : inSpace addr = true) (v : Byte) :
    memRead (Memory.write m addr.toNat v) addr = .ok v := by
  rw [memRead_ok inside, Memory.read_write_same wf]

theorem memRead_write_other (m : Memory) {addr other : Int} (inside : inSpace addr = true) (v : Byte) (ne : other ≠ addr) :
    memRead (Memory.write m addr.toNat v) other = memRead m other := by
  cases otherInside : inSpace other with
  | true =>
    have cells : other.toNat ≠ addr.toNat := by
      rw [inSpace_iff] at inside otherInside
      omega
    rw [memRead_ok otherInside, memRead_ok otherInside, Memory.read_write_other m v cells]
  | false => rw [memRead_error otherInside, memRead_error otherInside]

/-- What the port reads once a write has succeeded. -/
theorem memRead_after_memWrite {m m' : Memory} {addr value : Int} (wf : Memory.wf m = true)
    (h : memWrite m addr value = .ok m') :
    memRead m' addr = .ok (BitVec.ofInt 8 value) ∧ ∀ other, other ≠ addr → memRead m' other = memRead m other := by
  obtain ⟨inside, rfl⟩ := memWrite_eq_ok h
  exact ⟨memRead_write_same wf inside _, fun _ => memRead_write_other m inside _⟩

/-- Settles O18: by the range of the address, and by the cell written. -/
theorem readGivesTheByteLastWritten : Obligations.ReadGivesTheByteLastWritten :=
  ⟨fun _ addr low high => ⟨_, memRead_ok ((inSpace_iff addr).2 ⟨low, high⟩)⟩,
    fun _ addr outside => memRead_error ((inSpace_eq_false_iff addr).2 outside),
    fun addr low high => memRead_ok ((inSpace_iff addr).2 ⟨low, high⟩),
    fun _ _ _ _ wf h => memRead_after_memWrite wf h⟩

/-- Settles O19: the four combinations of a good or bad address and value. -/
theorem writeStoresOrFails : Obligations.WriteStoresOrFails := by
  intro m addr value
  rw [← inSpace_iff, ← isByte_iff, ← inSpace_eq_false_iff, ← isByte_eq_false_iff]
  refine ⟨fun inside byte => ?_, memWrite_bad_value m, memWrite_bad_addr m, memWrite_both_bad m⟩
  have stored := memWrite_ok m inside byte
  exact ⟨_, stored, fun wf => ⟨memWrite_wf wf stored, memRead_after_memWrite wf stored⟩⟩

/-! ### The reads of a decode (R86, R87)

Every memory mode asks for reads of which all but the last lie inside AddressSpace. The last is the eager read, or the pointer's
high byte where that lies outside; whether it lies inside decides whether the operand is resolved. -/

/-- Decoding `m` from `s` reads at `before`, inside AddressSpace, and then at `last`, on which its result turns. -/
structure ReadsEndAt (m : MemForm) (s : State) (before : List Int) (last : Int) : Prop where
  asked : operandReads m s = before ++ [last]
  inside : ∀ addr ∈ before, inSpace addr = true
  good : inSpace last = true → resolveMem m s = .ok (BitVec.ofInt 16 last, Memory.read s.mem last.toNat)
  bad : inSpace last = false → resolveMem m s = .error (.outOfRange last)

theorem wordAt_eq_joinBytes (m : Memory) (loc : Nat) :
    wordAt m loc = (joinBytes (Memory.read m loc) (Memory.read m (loc + 1))).toNat :=
  (joinBytes_toNat _ _).symm

theorem wordAt_lt (m : Memory) (loc : Nat) : wordAt m loc < 65536 := by
  rw [wordAt_eq_joinBytes]
  exact BitVec.isLt _

section
variable {m : MemForm} {s : State}

/-- A mode without a pointer reads at its effective address alone. -/
theorem ReadsEndAt.direct {ea : Int} (noPointer : pointerLoc m s = none) (eff : effectiveAddress m s = .ok ea) :
    ReadsEndAt m s [] ea where
  asked := by simp only [operandReads, noPointer, eff]
  inside := by simp
  good := resolveMem_ok eff
  bad := resolveMem_outside eff

variable {loc index : Nat} (points : pointerLoc m s = some (loc : Int))
  (eff : effectiveAddress m s = (memRead2 s.mem loc).map fun p => ((p.toNat + index : Nat) : Int))
include points eff

/-- A mode with its pointer inside AddressSpace reads the pointer and then at the effective address it gives. -/
theorem ReadsEndAt.pointer (high : loc + 1 < 65536) :
    ReadsEndAt m s [(loc : Int), (loc + 1 : Nat)] (wordAt s.mem loc + index : Nat) := by
  have ea : effectiveAddress m s = .ok ((wordAt s.mem loc + index : Nat) : Int) := by
    rw [eff, memRead2_ok high, wordAt_eq_joinBytes]
    rfl
  refine ⟨?_, ?_, resolveMem_ok ea, resolveMem_outside ea⟩
  · simp only [operandReads, points, ea]
    rfl
  · simp only [List.mem_cons, List.not_mem_nil, or_false, forall_eq_or_imp, forall_eq, inSpace_natCast]
    omega

/-- A pointer whose high byte lies outside AddressSpace ends the decode there. -/
theorem ReadsEndAt.pointer_outside (top : loc = 65535) : ReadsEndAt m s [(loc : Int)] (loc + 1 : Nat) := by
  have low : inSpace (loc : Int) = true := (inSpace_natCast loc).2 (by omega)
  have high : inSpace ((loc + 1 : Nat) : Int) = false := (inSpace_eq_false_iff _).2 (by omega)
  have ea : effectiveAddress m s = .error (.outOfRange ((loc + 1 : Nat) : Int)) := by
    rw [eff, memRead2_high_error low high]
    rfl
  refine ⟨?_, ?_, fun inside => ?_, fun _ => resolveMem_pointer_error ea⟩
  · simp only [operandReads, points, ea]
    rfl
  · simpa using low
  · rw [high] at inside
    cases inside

theorem ReadsEndAt.pointer_exists (low : loc < 65536) : ∃ before last, ReadsEndAt m s before last := by
  by_cases high : loc + 1 < 65536
  · exact ⟨_, _, .pointer points eff high⟩
  · exact ⟨_, _, .pointer_outside points eff (by omega)⟩

end

theorem readsEndAt_exists (m : MemForm) (s : State) : ∃ before last, ReadsEndAt m s before last := by
  cases m with
  | abs w | abx w | aby w | zp d | zpx d | zpy d | rel d => exact ⟨_, _, .direct rfl rfl⟩
  | ind w => exact ReadsEndAt.pointer_exists (index := 0) rfl rfl w.isLt
  | izx d => exact ReadsEndAt.pointer_exists (index := 0) rfl rfl (by omega)
  | izy d => exact ReadsEndAt.pointer_exists (index := s.y.toNat) rfl rfl (by omega)

/-- Reads are issued up to the last one when all before it succeed (R87). -/
theorem issued_append_last (last : Int) : ∀ {before : List Int}, (∀ addr ∈ before, inSpace addr = true) →
    issued (before ++ [last]) = before ++ [last]
  | [], _ => by simp [issued]
  | addr :: rest, inside => by
    obtain ⟨first, others⟩ := List.forall_mem_cons.1 inside
    simp only [List.cons_append, issued, first, if_true, issued_append_last last others]

section
variable {m : MemForm} {s : State} {before : List Int} {last : Int}

theorem ReadsEndAt.issued_eq (ends : ReadsEndAt m s before last) : issued (operandReads m s) = before ++ [last] := by
  rw [ends.asked, issued_append_last last ends.inside]

theorem ReadsEndAt.resolve_good (ends : ReadsEndAt m s before last) (good : inSpace last = true) :
    resolve (.mem m) s = .ok (.memory (BitVec.ofInt 16 last) (Memory.read s.mem last.toNat)) := by
  simp only [resolve, ends.good good, Except.map]

theorem ReadsEndAt.resolve_bad (ends : ReadsEndAt m s before last) (bad : inSpace last = false) :
    resolve (.mem m) s = .error (.outOfRange last) := by
  simp only [resolve, ends.bad bad, Except.map]

theorem ReadsEndAt.last_inside (ends : ReadsEndAt m s before last) {o : Operand} (resolved : resolve (.mem m) s = .ok o) :
    inSpace last = true := by
  by_contra bad
  rw [ends.resolve_bad (Bool.eq_false_of_not_eq_true bad)] at resolved
  cases resolved

theorem ReadsEndAt.last_outside (ends : ReadsEndAt m s before last) {e : PortError} (failed : resolve (.mem m) s = .error e) :
    inSpace last = false ∧ e = .outOfRange last := by
  have bad : inSpace last = false := by
    by_contra good
    rw [ends.resolve_good (Bool.eq_true_of_not_eq_false good)] at failed
    cases failed
  exact ⟨bad, Except.error.inj (failed.symm.trans (ends.resolve_bad bad))⟩

end

/-- Only a memory mode can fail to resolve, and then a read has failed (R141). -/
theorem resolve_error {form : OperandForm} {s : State} {e : PortError} (h : resolve form s = .error e) :
    ∃ m before last, form = .mem m ∧ ReadsEndAt m s before last ∧ inSpace last = false ∧ e = .outOfRange last := by
  cases form with
  | imp | acc | imm d => cases h
  | mem m =>
    obtain ⟨before, last, ends⟩ := readsEndAt_exists m s
    exact ⟨m, before, last, rfl, ends, ends.last_outside h⟩

/-- The faults of an instruction: OutOfRange where its decode fails, and JSR's. -/
theorem exec_fault {i : Instr} {s : State} {f : Fault} (h : exec i s = .fault f) :
    (∃ addr left, f = .outOfRange addr left ∧ resolve i.form s = .error (.outOfRange addr)) ∨
    (∃ what left, f = .unsupportedInstruction what left) := by
  rcases exec_cases i s with ⟨t, he⟩ | ⟨e, failed, he⟩ | ⟨addr, value, -, -, -, he⟩ <;> rw [he] at h
  · cases h
  · obtain ⟨-, -, last, -, -, -, rfl⟩ := resolve_error failed
    cases h
    exact .inl ⟨_, _, rfl, failed⟩
  · cases h
    exact .inr ⟨_, _, rfl⟩

/-- Settles O25: a step faults at lookup or in its instruction, whose decode only reads. -/
theorem invalidValueIsNeverRaised : Obligations.InvalidValueIsNeverRaised := by
  intro s left value h
  by_cases run : s.status = .running
  · cases found : fetch s with
    | none =>
      rw [step_running_none run found] at h
      cases h
    | some i =>
      rw [step_running_some run found] at h
      rcases exec_fault h with ⟨addr, left', f, -⟩ | ⟨what, left', f⟩ <;> cases f
  · rw [step_idle run] at h
    cases h

/-! ### A store (R107) -/

theorem form_mem_of_sta {i : Instr} (sta : i.mnemonic = .sta) : ∃ m, i.form = .mem m := by
  cases i with
  | staZp d | staZpx d | staAbs w | staAbx w | staAby w | staIzx d | staIzy d => exact ⟨_, rfl⟩
  | _ => cases sta

theorem resolve_mem_ok {m : MemForm} {s : State} {o : Operand} (h : resolve (.mem m) s = .ok o) :
    ∃ addr value, o = .memory addr value := by
  obtain ⟨before, last, ends⟩ := readsEndAt_exists m s
  exact ⟨_, _, Except.ok.inj (h.symm.trans (ends.resolve_good (ends.last_inside h)))⟩

/-- STA writes A to the address its operand resolves to. -/
theorem exec_sta {i : Instr} {s : State} {addr : Word} {value : Byte} (sta : i.mnemonic = .sta)
    (resolved : resolve i.form s = .ok (.memory addr value)) :
    exec i s = .next ((s.advance (1 + i.operandBytes)).setMem (Memory.write s.mem addr.toNat s.a)) := by
  rw [exec_eq, decodeThen, resolved, sta]
  exact storeA_eq addr _

/-- An STA that goes on has resolved an address and written there. -/
theorem sta_next {i : Instr} {s t : State} (sta : i.mnemonic = .sta) (h : exec i s = .next t) :
    ∃ addr value, resolve i.form s = .ok (.memory addr value) ∧ t.mem = Memory.write s.mem addr.toNat s.a := by
  obtain ⟨o, resolved, -⟩ := exec_next h
  obtain ⟨m, form⟩ := form_mem_of_sta sta
  obtain ⟨addr, value, rfl⟩ := resolve_mem_ok (form ▸ resolved)
  rw [exec_sta sta resolved] at h
  cases h
  exact ⟨addr, value, resolved, rfl⟩

theorem Effect.mem_unchanged {mn : Mnemonic} {t u : State} (eff : Effect mn t u) (other : mn ≠ .sta) : u.mem = t.mem := by
  cases eff with
  | stores addr who => exact absurd who other
  | _ => rfl

theorem exec_mem_unchanged {i : Instr} {s t : State} (h : exec i s = .next t) (other : i.mnemonic ≠ .sta) : t.mem = s.mem :=
  (exec_effect h).mem_unchanged other

theorem exec_console_unchanged {i : Instr} {s t : State} (h : exec i s = .next t) (other : i.mnemonic ≠ .jsr) :
    t.console = s.console :=
  (exec_effect h).console_unchanged other

/-- Settles O54: STA writes one cell, and no other effect touches AddressSpace. -/
theorem onlyTheStoredCellChanges : Obligations.OnlyTheStoredCellChanges := by
  intro i s t h
  refine ⟨exec_mem_unchanged h, fun sta => ?_⟩
  obtain ⟨addr, value, resolved, mem⟩ := sta_next sta h
  exact ⟨addr, value, resolved, fun other ne => by rw [mem, Memory.read_write_other _ _ ne]⟩

/-- Settles O56: the fetch reads the cell STA has written. -/
theorem storeIsSeenByTheNextFetch : Obligations.StoreIsSeenByTheNextFetch := by
  intro i s t addr old k wf sta resolved h fetched
  rw [exec_sta sta resolved] at h
  cases h
  rw [fetchByte, fetched]
  exact Memory.read_write_same wf addr.toNat s.a

/-! ### The transactions of the action (R44, 5 and 6) -/

theorem acted_sta {i : Instr} (sta : i.mnemonic = .sta) (ea : Nat) (s : State) : acted i ea s = [.write ea s.a] := if_pos sta

theorem acted_jsr {i : Instr} (jsr : i.mnemonic = .jsr) (addr : Word) (s : State) :
    acted i addr.toNat s = if addr = s.printAddr then [.console s.a] else [] := by
  simp only [acted, jsr, reduceCtorEq, BitVec.toNat_inj, true_and, if_false]

theorem acted_other {i : Instr} (notSta : i.mnemonic ≠ .sta) (notJsr : i.mnemonic ≠ .jsr) (ea : Nat) (s : State) :
    acted i ea s = [] := by
  simp only [acted, notSta, notJsr, false_and, if_false]

theorem actTransactions_other {i : Instr} (notSta : i.mnemonic ≠ .sta) (notJsr : i.mnemonic ≠ .jsr) (s : State) :
    actTransactions i s = [] := by
  unfold actTransactions
  split
  · exact absurd ‹i.mnemonic = .sta› notSta
  · exact absurd ‹i.mnemonic = .jsr› notJsr
  · rfl

section
variable {i : Instr} {s : State}

/-- The action's transactions are those the statements list for the resolved address. -/
theorem actTransactions_memory {addr : Word} {value : Byte} (resolved : resolve i.form s = .ok (.memory addr value)) :
    actTransactions i s = acted i addr.toNat s := by
  by_cases sta : i.mnemonic = .sta
  · rw [acted_sta sta, actTransactions, resolved, sta]
  · by_cases jsr : i.mnemonic = .jsr
    · rw [acted_jsr jsr, actTransactions, resolved, jsr]
    · rw [acted_other sta jsr, actTransactions_other sta jsr]

/-- Without a resolved address the action issues nothing. -/
theorem actTransactions_no_address (noAddress : ∀ addr value, resolve i.form s ≠ .ok (.memory addr value)) :
    actTransactions i s = [] := by
  unfold actTransactions
  split
  · exact absurd ‹_› (noAddress _ _)
  · exact absurd ‹_› (noAddress _ _)
  · rfl

theorem actTransactions_unresolved {e : PortError} (failed : resolve i.form s = .error e) : actTransactions i s = [] :=
  actTransactions_no_address fun addr value resolved => by
    rw [failed] at resolved
    cases resolved

theorem resolve_no_mem {form : OperandForm} (noMem : ∀ m, form ≠ .mem m) (addr : Word) (value : Byte) :
    resolve form s ≠ .ok (.memory addr value) := by
  cases form with
  | imp | acc | imm d => nofun
  | mem m => exact absurd rfl (noMem m)

theorem actTransactions_at {m : MemForm} {before : List Int} {last : Int} (form : i.form = .mem m)
    (ends : ReadsEndAt m s before last) :
    actTransactions i s = if inSpace last then acted i last.toNat s else [] := by
  cases inside : inSpace last with
  | true => rw [actTransactions_memory (form ▸ ends.resolve_good inside), Word.ofInt_toNat inside, if_pos rfl]
  | false => rw [actTransactions_unresolved (form ▸ ends.resolve_bad inside), if_neg Bool.false_ne_true]

theorem actTransactions_jsrAbs (w : Word) (s : State) :
    actTransactions (.jsrAbs w) s = if w = s.printAddr then [.console s.a] else [] := by
  rw [actTransactions_at rfl (.direct rfl rfl), inSpace_word, if_pos rfl, Int.toNat_natCast, acted_jsr rfl]

end

/-! ### The transactions of an instruction (R44, R87) -/

theorem operandBytes_of_form {i : Instr} {form : OperandForm} (h : i.form = form) :
    i.operandBytes = form.mode.operandBytes := by
  rw [← h]
  rfl

theorem operandBytes_le (mode : Mode) : mode.operandBytes ≤ 2 := by
  cases mode <;> decide

theorem fetchAddr_eq (s : State) (k : Nat) : fetchAddr s k = (s.pc.toNat + k) % 65536 := by
  simp [fetchAddr]

theorem fetchReads_eq_fetched {n : Nat} (s : State) (bound : n ≤ 2) : (fetchReads n s).map .read = fetched s n := by
  match n, bound with
  | 0, _ | 1, _ | 2, _ => simp [fetchReads, fetched, fetchAddr_eq, List.range_succ]

theorem fetchReads_inside (n : Nat) (s : State) : ∀ addr ∈ fetchReads n s, inSpace addr = true := by
  intro addr mem
  obtain ⟨k, -, rfl⟩ := List.mem_map.1 mem
  exact inSpace_word _

section
variable {i : Instr} {s : State}

theorem transactions_mem {m : MemForm} {before : List Int} {last : Int} (form : i.form = .mem m)
    (ends : ReadsEndAt m s before last) :
    transactions i s =
      (fetchReads i.operandBytes s).map .read ++ (before ++ [last]).map .read ++ actTransactions i s := by
  simp only [transactions, form, ends.issued_eq]

/-- Without a memory mode an instruction is fetched and does nothing else on the ports. -/
theorem transactions_no_mem (noMem : ∀ m, i.form ≠ .mem m) :
    transactions i s = (fetchReads i.operandBytes s).map .read := by
  rw [transactions, actTransactions_no_address (resolve_no_mem noMem), List.append_nil]
  split
  · exact absurd ‹_› (noMem _)
  all_goals exact List.append_nil _

/-- Where the operand is resolved, reads that succeed come first and the action's transactions follow. -/
theorem transactions_resolved {o : Operand} (resolved : resolve i.form s = .ok o) :
    ∃ reads : List Int, (∀ addr ∈ reads, inSpace addr = true) ∧
      transactions i s = reads.map .read ++ actTransactions i s := by
  by_cases memory : ∃ m, i.form = .mem m
  · obtain ⟨m, form⟩ := memory
    obtain ⟨before, last, ends⟩ := readsEndAt_exists m s
    have good := ends.last_inside (form ▸ resolved)
    refine ⟨fetchReads i.operandBytes s ++ (before ++ [last]), ?_, ?_⟩
    · simp only [List.forall_mem_append, List.forall_mem_singleton]
      exact ⟨fetchReads_inside _ s, ends.inside, good⟩
    · rw [transactions_mem form ends, List.map_append (l₁ := fetchReads _ _)]
  · have noMem : ∀ m, i.form ≠ .mem m := not_exists.1 memory
    refine ⟨_, fetchReads_inside i.operandBytes s, ?_⟩
    rw [transactions_no_mem noMem, actTransactions_no_address (resolve_no_mem noMem), List.append_nil]

/-- Where it is not, reads that succeed come first and the failing one is the last transaction. -/
theorem transactions_unresolved {addr : Int} (failed : resolve i.form s = .error (.outOfRange addr)) :
    inSpace addr = false ∧ ∃ reads : List Int, (∀ a ∈ reads, inSpace a = true) ∧
      transactions i s = reads.map .read ++ [.read addr] := by
  obtain ⟨m, before, last, form, ends, bad, e⟩ := resolve_error failed
  cases e
  refine ⟨bad, fetchReads i.operandBytes s ++ before, ?_, ?_⟩
  · exact List.forall_mem_append.2 ⟨fetchReads_inside _ s, ends.inside⟩
  · rw [transactions_mem form ends, actTransactions_unresolved failed]
    simp only [List.map_append, List.append_assoc, List.append_nil, List.map_cons, List.map_nil]

end

/-! ### What transactions do to AddressSpace and the console -/

theorem reads_succeed {reads : List Int} (inside : ∀ addr ∈ reads, inSpace addr = true) :
    (reads.map Transaction.read).all (fun x => !x.fails) = true := by
  simpa [Transaction.fails] using inside

@[simp] theorem written_reads_append (m : Memory) (rest : List Transaction) :
    ∀ reads : List Int, written m (reads.map .read ++ rest) = written m rest
  | [] => rfl
  | _ :: reads => written_reads_append m rest reads

@[simp] theorem emitted_reads_append (rest : List Transaction) :
    ∀ reads : List Int, emitted (reads.map .read ++ rest) = emitted rest
  | [] => rfl
  | _ :: reads => emitted_reads_append rest reads

theorem written_reads (m : Memory) (reads : List Int) : written m (reads.map .read) = m := by
  simpa [written] using written_reads_append m [] reads

theorem emitted_reads (reads : List Int) : emitted (reads.map .read) = [] := by
  simpa [emitted] using emitted_reads_append [] reads

/-- A JSR that goes on is the print call. -/
theorem jsrAbs_next {w : Word} {s t : State} (h : exec (.jsrAbs w) s = .next t) :
    w = s.printAddr ∧ t.console = s.console ++ [s.a] := by
  rw [exec_jsrAbs] at h
  by_cases print : w = (s.advance 3).printAddr
  · exact ⟨print, callPrint_next h ▸ rfl⟩
  · rw [callPrint_other print] at h
    cases h

/-- The action's transactions cannot fail, and they are the change of AddressSpace and of the console. -/
theorem actTransactions_account {i : Instr} {s t : State} (h : exec i s = .next t) :
    (actTransactions i s).all (fun x => !x.fails) = true ∧ t.mem = written s.mem (actTransactions i s) ∧
      t.console = s.console ++ emitted (actTransactions i s) := by
  by_cases sta : i.mnemonic = .sta
  · obtain ⟨addr, value, resolved, mem⟩ := sta_next sta h
    have console := exec_console_unchanged h (by rw [sta]; decide)
    rw [actTransactions_memory resolved, acted_sta sta]
    simp [Transaction.fails, inSpace_word, written, emitted, mem, console]
  · have mem := exec_mem_unchanged h sta
    by_cases jsr : i.mnemonic = .jsr
    · obtain ⟨w, rfl⟩ := eq_jsrAbs_of_mnemonic jsr
      obtain ⟨print, console⟩ := jsrAbs_next h
      rw [actTransactions_jsrAbs, if_pos print]
      simp [Transaction.fails, written, emitted, mem, console]
    · have console := exec_console_unchanged h jsr
      rw [actTransactions_other sta jsr]
      simp [written, emitted, mem, console]

/-- Settles O31: the reads change nothing, the last of them fails where decode does, and the action's transactions are the
result's changes. -/
theorem transactionsAccountForTheResult : Obligations.TransactionsAccountForTheResult := by
  intro i s
  constructor
  · intro addr left h
    rcases exec_fault h with ⟨_, _, f, failed⟩ | ⟨_, _, f⟩ <;> cases f
    obtain ⟨bad, reads, inside, list⟩ := transactions_unresolved failed
    exact ⟨_, list, bad, reads_succeed inside, written_reads _ _, emitted_reads _⟩
  · intro t h
    obtain ⟨o, resolved, -⟩ := exec_next h
    obtain ⟨reads, inside, list⟩ := transactions_resolved resolved
    obtain ⟨good, mem, console⟩ := actTransactions_account h
    rw [list, List.all_append, reads_succeed inside, good, written_reads_append, emitted_reads_append]
    exact ⟨rfl, mem, console⟩

/-! ### The list of each mode (R44) -/

section
variable {i : Instr} {s : State} {m : MemForm} {before : List Int}

theorem transactions_no_mem_listed {form : OperandForm} (h : i.form = form) (noMem : ∀ m, form ≠ .mem m) :
    transactions i s = fetched s form.mode.operandBytes := by
  rw [transactions_no_mem (h ▸ noMem), operandBytes_of_form h, fetchReads_eq_fetched s (operandBytes_le _)]

/-- The fetch reads, the reads of the decode, and what the instruction does at an address inside AddressSpace. -/
theorem transactions_listed {last : Int} (form : i.form = .mem m) (ends : ReadsEndAt m s before last) :
    transactions i s = fetched s m.mode.operandBytes ++ (before ++ [last]).map .read ++
      if inSpace last then acted i last.toNat s else [] := by
  rw [transactions_mem form ends, actTransactions_at form ends, operandBytes_of_form form,
    fetchReads_eq_fetched s (operandBytes_le _)]
  rfl

theorem transactions_listed_nat {last : Nat} (form : i.form = .mem m) (ends : ReadsEndAt m s before last) :
    transactions i s = fetched s m.mode.operandBytes ++ (before ++ [(last : Int)]).map .read ++
      if last < 65536 then acted i last s else [] := by
  rw [transactions_listed form ends, Int.toNat_natCast]
  simp only [inSpace_natCast]

theorem transactions_listed_inside {last : Nat} (form : i.form = .mem m) (ends : ReadsEndAt m s before last)
    (inside : last < 65536) :
    transactions i s = fetched s m.mode.operandBytes ++ (before ++ [(last : Int)]).map .read ++ acted i last s := by
  rw [transactions_listed_nat form ends, if_pos inside]

end

theorem sext8_eq_toInt (d : Byte) : sext8 d = d.toInt := by
  have := d.isLt
  rw [sext8, BitVec.toInt_eq_toNat_cond]
  split <;> omega

theorem relativeBase_eq (s : State) : relativeBase s = (s.pc.toNat + 1) % 65536 := by
  simp [relativeBase]

theorem mnemonic_of_rel {i : Instr} {d : Byte} (form : i.form = .mem (.rel d)) : i.mnemonic = .beq := by
  cases i with
  | beqRel d' => rfl
  | _ => cases form

theorem mnemonic_of_ind {i : Instr} {w : Word} (form : i.form = .mem (.ind w)) : i.mnemonic = .jmp := by
  cases i with
  | jmpInd w' => rfl
  | _ => cases form

theorem transactions_rel {i : Instr} {s : State} {d : Byte} (form : i.form = .mem (.rel d)) :
    transactions i s = fetched s 1 ++ [.read (((s.pc.toNat + 1) % 65536 : Nat) + d.toInt)] := by
  have beq := mnemonic_of_rel form
  have nothing := acted_other (i := i) (by rw [beq]; decide) (by rw [beq]; decide)
  rw [transactions_listed form (.direct rfl rfl), nothing, ite_self, List.append_nil, sext8_eq_toInt, relativeBase_eq]
  rfl

theorem transactions_ind {i : Instr} {s : State} {w : Word} (form : i.form = .mem (.ind w)) :
    transactions i s = fetched s 2 ++ [.read w.toNat, .read (w.toNat + 1 : Nat)] ++
      if w.toNat < 65535 then [.read (wordAt s.mem w.toNat)] else [] := by
  have jmp := mnemonic_of_ind form
  have nothing := acted_other (i := i) (by rw [jmp]; decide) (by rw [jmp]; decide)
  by_cases high : w.toNat < 65535
  · rw [if_pos high, transactions_listed form (.pointer (index := 0) rfl rfl (by omega)), nothing, ite_self, List.append_nil,
      List.append_assoc]
    rfl
  · have := w.isLt
    rw [if_neg high, transactions_listed form (.pointer_outside (index := 0) rfl rfl (by omega)), nothing, ite_self]
    rfl

/-- Settles O32, mode by mode: each mode's pointer and effective address are what their definitions compute to. -/
theorem modesIssueTheListedTransactions : Obligations.ModesIssueTheListedTransactions := by
  intro i s d w
  refine ⟨fun imp => ?_, fun imm => ?_, fun abs => ?_, fun abx => ?_, fun aby => ?_, fun zp => ?_, fun zpx => ?_, fun zpy => ?_,
    transactions_rel, transactions_ind, fun izx => ?_, fun izy => ?_⟩
  · exact transactions_no_mem_listed imp nofun
  · exact transactions_no_mem_listed imm nofun
  · exact transactions_listed_inside abs (.direct rfl rfl) w.isLt
  · exact transactions_listed_nat abx (.direct rfl rfl)
  · exact transactions_listed_nat aby (.direct rfl rfl)
  · exact transactions_listed_inside zp (.direct rfl rfl) (by omega)
  · exact transactions_listed_inside zpx (.direct rfl rfl) (by omega)
  · exact transactions_listed_inside zpy (.direct rfl rfl) (by omega)
  · exact transactions_listed_inside izx (.pointer (index := 0) rfl rfl (by omega)) (wordAt_lt _ _)
  · exact transactions_listed_nat izy (.pointer rfl rfl (by omega))

end Sys2Proof.Machine
end

section
/-! Encoding (spec/30_encoding.md R50 to R57): what decoding a first byte can answer, what each row of the opcode table says of
the instructions it builds, and the branch byte of the assembler. Everything about all 61 instructions goes through two facts:
every row describes what it builds (`opcodeTable_describes`), and the first byte of every encoding selects a row that reads the
instruction back (`exists_lookupRow_encode`). -/

namespace Sys2Proof

/-! ### The rows of the table -/

theorem opcode_injective {r r' : Row} (mem : r ∈ opcodeTable) (mem' : r' ∈ opcodeTable) (same : r.opcode = r'.opcode) :
    r = r' :=
  List.inj_on_of_nodup_map opcodeTable_nodup mem mem' (congrArg BitVec.toNat same)

/-- No two rows share a mnemonic and a mode (R53). -/
theorem opcodeTable_pairs_nodup : (opcodeTable.map fun r => (r.mnemonic, r.mode)).Nodup := by decide

theorem pair_injective {r r' : Row} (mem : r ∈ opcodeTable) (mem' : r' ∈ opcodeTable) (mn : r.mnemonic = r'.mnemonic)
    (mode : r.mode = r'.mode) : r = r' :=
  List.inj_on_of_nodup_map opcodeTable_pairs_nodup mem mem' (Prod.ext mn mode)

/-- Every pair of R53's table by mnemonic has a row in the table by opcode byte. -/
theorem exists_row_of_pair (mn : Mnemonic) : ∀ mode ∈ mn.modes, ∃ r ∈ opcodeTable, r.mnemonic = mn ∧ r.mode = mode := by
  cases mn <;> decide

theorem lookupRow_eq_some_iff {op : Byte} {r : Row} : lookupRow op = some r ↔ r ∈ opcodeTable ∧ r.opcode = op := by
  constructor
  · intro found
    exact ⟨List.mem_of_find?_eq_some found, by simpa using List.find?_some found⟩
  · rintro ⟨mem, rfl⟩
    cases found : lookupRow r.opcode with
    | none => exact absurd (beq_self_eq_true r.opcode) (List.find?_eq_none.mp found r mem)
    | some r' =>
      have opcode : r'.opcode = r.opcode := by simpa using List.find?_some found
      rw [opcode_injective (List.mem_of_find?_eq_some found) mem opcode]

theorem lookupRow_eq_none_iff {op : Byte} : lookupRow op = none ↔ op.toNat ∉ Machine.supportedOpcodes := by
  rw [lookupRow, List.find?_eq_none, ← opcodeTable_opcodes]
  simp [BitVec.toNat_inj]

theorem build_operandBytes {r : Row} (mem : r ∈ opcodeTable) : r.build.operandBytes = r.mode.operandBytes := by
  have row := List.all_eq_true.mp opcodeTable_rows r mem
  simp only [Bool.and_eq_true, beq_iff_eq] at row
  exact row.2

/-! ### Reading the operand bytes (R50, R51) -/

/-- A row's format reads these operand bytes as this instruction. -/
inductive Build.Reads : Build → List Byte → Instr → Prop where
  | op (i : Instr) : Reads (.op i) [] i
  | d8 (f : Byte → Instr) (d : Byte) : Reads (.d8 f) [d] (f d)
  | d16 (f : Word → Instr) (lo hi : Byte) : Reads (.d16 f) [lo, hi] (f (joinBytes lo hi))

/-- `data` as operand bytes give it: the little-endian number they write (R51). -/
def dataOf (operands : List Byte) : Nat := Nat.ofDigits 256 (operands.map BitVec.toNat)

@[simp] theorem dataOf_nil : dataOf [] = 0 := rfl

@[simp] theorem dataOf_cons (b : Byte) (operands : List Byte) : dataOf (b :: operands) = b.toNat + 256 * dataOf operands :=
  Nat.ofDigits_cons ..

theorem eq_of_dataOf_eq {operands operands' : List Byte} (length : operands.length = operands'.length)
    (same : dataOf operands = dataOf operands') : operands = operands' := by
  have byte_lt : ∀ l : List Byte, ∀ n ∈ l.map BitVec.toNat, n < 256 := by
    intro l n mem
    obtain ⟨b, -, rfl⟩ := List.mem_map.mp mem
    exact b.isLt
  have digits := Nat.ofDigits_inj_of_len_eq (by decide) (by simpa using length) (byte_lt operands) (byte_lt operands') same
  exact List.map_injective_iff.mpr BitVec.toNat_injective digits

section
variable {b : Build} {operands : List Byte} {i : Instr}

theorem Build.Reads.length (reads : b.Reads operands i) : operands.length = b.operandBytes := by
  cases reads <;> rfl

theorem Build.Reads.unique {j : Instr} (reads : b.Reads operands i) (reads' : b.Reads operands j) : i = j := by
  cases reads <;> cases reads' <;> rfl

/-- The two operand bytes of a 16-bit value are read as it. -/
theorem Build.Reads.word (f : Word → Instr) (w : Word) : (Build.d16 f).Reads [lowByte w, highByte w] (f w) := by
  simpa only [Machine.joinBytes_low_high] using Build.Reads.d16 f (lowByte w) (highByte w)

/-- Every number that fits a format's operand bytes is read from some. -/
theorem Build.exists_reads (b : Build) {n : Nat} (fits : n < 256 ^ b.operandBytes) :
    ∃ operands i, b.Reads operands i ∧ dataOf operands = n := by
  cases b with
  | op i =>
    have : n < 1 := fits
    exact ⟨_, _, .op i, by simp only [dataOf_nil]; omega⟩
  | d8 f =>
    have : n < 256 := fits
    exact ⟨_, _, .d8 f (BitVec.ofNat 8 n), by simp only [dataOf_cons, dataOf_nil, BitVec.toNat_ofNat]; omega⟩
  | d16 f =>
    have : n < 65536 := fits
    exact ⟨_, _, .d16 f (BitVec.ofNat 8 n) (BitVec.ofNat 8 (n / 256)), by
      simp only [dataOf_cons, dataOf_nil, BitVec.toNat_ofNat]; omega⟩

end

theorem dataOf_word (lo hi : Byte) : dataOf [lo, hi] = (joinBytes lo hi).toNat := by
  simp only [dataOf_cons, dataOf_nil, Machine.joinBytes_toNat, Nat.mul_zero, Nat.add_zero]

theorem low_high_joinBytes (lo hi : Byte) : [lowByte (joinBytes lo hi), highByte (joinBytes lo hi)] = [lo, hi] := by
  refine eq_of_dataOf_eq rfl ?_
  rw [dataOf_word, dataOf_word, Machine.joinBytes_low_high]

/-! ### What a row says of the instructions it builds -/

/-- The bytes of an instruction and its raw form are those of a row with these operand bytes. -/
structure Row.Describes (r : Row) (operands : List Byte) (i : Instr) : Prop where
  bytes : encode i = r.opcode :: operands
  raw : i.raw = ⟨r.mnemonic, r.mode, dataOf operands⟩

section
variable {r : Row} {operands : List Byte} {i : Instr}

theorem Row.Describes.mode (describes : r.Describes operands i) : i.mode = r.mode := congrArg RawInstr.mode describes.raw

theorem Row.Describes.data (describes : r.Describes operands i) : i.form.data = dataOf operands :=
  congrArg RawInstr.data describes.raw

end

/-- A row's opcode byte, mnemonic and mode, against the encoder and the raw form, for every operand of the row's format. -/
def Row.Agrees (r : Row) : Prop :=
  match r.build with
  | .op i => encode i = [r.opcode] ∧ i.raw = ⟨r.mnemonic, r.mode, 0⟩
  | .d8 f => ∀ d, encode (f d) = [r.opcode, d] ∧ (f d).raw = ⟨r.mnemonic, r.mode, d.toNat⟩
  | .d16 f => ∀ w, encode (f w) = [r.opcode, lowByte w, highByte w] ∧ (f w).raw = ⟨r.mnemonic, r.mode, w.toNat⟩

theorem opcodeTable_agrees : ∀ r ∈ opcodeTable, r.Agrees := by
  simp only [opcodeTable, opcodeTable00, opcodeTable80, opcodeTableA0, opcodeTableC0, List.forall_mem_append,
    List.forall_mem_cons, List.not_mem_nil, false_imp_iff, implies_true, and_true]
  simp [Row.Agrees, encode, Instr.raw, Instr.mnemonic, Instr.mode, Instr.form, OperandForm.mode, OperandForm.data, MemForm.mode,
    MemForm.data]

theorem opcodeTable_describes {r : Row} (mem : r ∈ opcodeTable) {operands : List Byte} {i : Instr}
    (reads : r.build.Reads operands i) : r.Describes operands i := by
  have agrees := opcodeTable_agrees r mem
  obtain ⟨op, mn, mode, b⟩ := r
  cases reads with
  | op i => exact ⟨agrees.1, agrees.2⟩
  | d8 f d => exact ⟨(agrees d).1, by simpa using (agrees d).2⟩
  | d16 f lo hi =>
    obtain ⟨bytes, raw⟩ := agrees (joinBytes lo hi)
    rw [low_high_joinBytes] at bytes
    exact ⟨bytes, by rw [dataOf_word]; exact raw⟩

/-- A row reads as many operand bytes as the mode of its instruction takes. -/
theorem operands_length {r : Row} (mem : r ∈ opcodeTable) {operands : List Byte} {i : Instr}
    (reads : r.build.Reads operands i) : operands.length = i.operandBytes := by
  rw [reads.length, build_operandBytes mem, Instr.operandBytes, (opcodeTable_describes mem reads).mode]

/-- The first byte of an instruction's encoding selects a row that reads it from the bytes after it, format by format. -/
theorem exists_lookupRow_encode (i : Instr) :
    ∃ r, lookupRow ((encode i).headD 0) = some r ∧ r.build.Reads (encode i).tail i := by
  cases i with
  | tax | txa | tay | tya | clc | inx | dex | iny | dey | brk =>
    exact ⟨_, rfl, .op _⟩
  | ldaImm d | ldaZp d | ldaZpx d | ldaIzx d | ldaIzy d | ldxImm d | ldxZp d | ldxZpy d | ldyImm d | ldyZp d | ldyZpx d
  | staZp d | staZpx d | staIzx d | staIzy d | adcImm d | adcZp d | adcZpx d | adcIzx d | adcIzy d | cmpImm d | cmpZp d
  | cmpZpx d | cmpIzx d | cmpIzy d | cpxImm d | cpxZp d | cpyImm d | cpyZp d | beqRel d =>
    exact ⟨_, rfl, .d8 _ d⟩
  | ldaAbs w | ldaAbx w | ldaAby w | ldxAbs w | ldxAby w | ldyAbs w | ldyAbx w | staAbs w | staAbx w | staAby w | adcAbs w
  | adcAbx w | adcAby w | cmpAbs w | cmpAbx w | cmpAby w | cpxAbs w | cpyAbs w | jmpAbs w | jmpInd w | jsrAbs w =>
    exact ⟨_, rfl, .word _ w⟩

/-- Every instruction is described by a row of the table. -/
theorem exists_row (i : Instr) : ∃ r ∈ opcodeTable, ∃ operands, r.build.Reads operands i ∧ r.Describes operands i := by
  obtain ⟨r, found, reads⟩ := exists_lookupRow_encode i
  have mem := (lookupRow_eq_some_iff.mp found).1
  exact ⟨r, mem, _, reads, opcodeTable_describes mem reads⟩

/-- An instruction is determined by its mnemonic, mode and data. -/
theorem raw_injective {i j : Instr} (same : i.raw = j.raw) : i = j := by
  obtain ⟨r, mem, operands, reads, describes⟩ := exists_row i
  obtain ⟨r', mem', operands', reads', describes'⟩ := exists_row j
  rw [describes.raw, describes'.raw, RawInstr.mk.injEq] at same
  obtain ⟨mn, mode, data⟩ := same
  obtain rfl := pair_injective mem mem' mn mode
  obtain rfl := eq_of_dataOf_eq (reads.length.trans reads'.length.symm) data
  exact reads.unique reads'

/-! ### What decoding a first byte can answer -/

section
variable {op : Byte} {bytes rest : List Byte} {i : Instr}

theorem decode_none (absent : lookupRow op = none) : decode (op :: bytes) = .error (.unsupportedOpcode op) := by
  simp only [decode, absent]

theorem decode_reads {r : Row} {operands : List Byte} (found : lookupRow op = some r) (reads : r.build.Reads operands i) :
    decode (op :: (operands ++ rest)) = .ok (i, rest) := by
  obtain ⟨op', mn, mode, b⟩ := r
  cases reads <;> simp [decode, found]

/-- Everything that can follow a byte of the table: operand bytes that its row reads, or too few bytes. -/
theorem decode_some {r : Row} (found : lookupRow op = some r) :
    (∃ operands rest i, r.build.Reads operands i ∧ bytes = operands ++ rest) ∨ decode (op :: bytes) = .error .truncated := by
  obtain ⟨op', mn, mode, b⟩ := r
  match b, bytes with
  | .op i, rest => exact .inl ⟨[], rest, i, .op i, rfl⟩
  | .d8 f, d :: rest => exact .inl ⟨[d], rest, f d, .d8 f d, rfl⟩
  | .d16 f, lo :: hi :: rest => exact .inl ⟨[lo, hi], rest, _, .d16 f lo hi, rfl⟩
  | .d8 _, [] | .d16 _, [] | .d16 _, [_] => exact .inr (by simp only [decode, found])

/-- An instruction has been read by the row of the first byte, from the bytes in front of what is left. -/
theorem decode_ok (h : decode (op :: bytes) = .ok (i, rest)) :
    ∃ r operands, lookupRow op = some r ∧ r.build.Reads operands i ∧ bytes = operands ++ rest := by
  cases found : lookupRow op with
  | none => cases (decode_none found).symm.trans h
  | some r =>
    rcases decode_some (bytes := bytes) found with ⟨operands, rest', i', reads, rfl⟩ | short
    · cases (decode_reads found reads).symm.trans h
      exact ⟨r, operands, rfl, reads, rfl⟩
    · cases short.symm.trans h

/-- The data of a decoded instruction is what the bytes after its first write, as many as its mode takes. -/
theorem data_of_decode (h : decode (op :: bytes) = .ok (i, rest)) : i.form.data = dataOf (bytes.take i.operandBytes) := by
  obtain ⟨r, operands, found, reads, rfl⟩ := decode_ok h
  have mem := (lookupRow_eq_some_iff.mp found).1
  rw [← operands_length mem reads, List.take_left, (opcodeTable_describes mem reads).data]

end

/-! ### The statements about the encoding -/

/-- Settles O1: the row that describes the instruction reads it back. -/
theorem decodeReadsBackEncode : Obligations.DecodeReadsBackEncode := by
  intro i rest
  obtain ⟨r, mem, operands, reads, describes⟩ := exists_row i
  rw [describes.bytes]
  exact decode_reads (lookupRow_eq_some_iff.mpr ⟨mem, rfl⟩) reads

/-- Settles O2: the row that has read the bytes describes the instruction. -/
theorem encodeRebuildsDecodedBytes : Obligations.EncodeRebuildsDecodedBytes := by
  intro bytes rest i h
  cases bytes with
  | nil => cases h
  | cons op bytes =>
    obtain ⟨r, operands, found, reads, rfl⟩ := decode_ok h
    obtain ⟨mem, rfl⟩ := lookupRow_eq_some_iff.mp found
    rw [(opcodeTable_describes mem reads).bytes, List.cons_append]

/-- Settles O3: a byte of no row is rejected, and a byte of a row is read or finds too few bytes. -/
theorem bytesOutsideTheTableAreRejected : Obligations.BytesOutsideTheTableAreRejected := by
  intro op rest
  rw [← lookupRow_eq_none_iff]
  refine ⟨fun rejected => ?_, decode_none⟩
  cases found : lookupRow op with
  | none => rfl
  | some r =>
    rcases decode_some (bytes := rest) found with ⟨operands, rest', i, reads, rfl⟩ | short
    · cases (decode_reads found reads).symm.trans rejected
    · cases short.symm.trans rejected

/-- Settles O5: both are read by the row of the first byte, whose format fixes the number of operand bytes. -/
theorem firstByteDecidesLength : Obligations.FirstByteDecidesLength := by
  intro op bytes bytes' rest rest' i i' h h'
  obtain ⟨r, operands, found, reads, rfl⟩ := decode_ok h
  obtain ⟨r', operands', found', reads', rfl⟩ := decode_ok h'
  obtain rfl : r = r' := Option.some.inj (found.symm.trans found')
  have mem := (lookupRow_eq_some_iff.mp found).1
  have same : operands.length = operands'.length := reads.length.trans reads'.length.symm
  constructor
  · simp only [List.length_append]
    omega
  · rw [← operands_length mem reads, ← operands_length mem reads', same]

/-- Settles O6: the pair's row builds it from operand bytes that write the data, and raw forms differ between instructions. -/
theorem rawInstructionsAreTheInstructions : Obligations.RawInstructionsAreTheInstructions := by
  rintro ⟨mn, mode, data⟩ wf
  simp only [RawInstr.wf, RawInstr.pairExists, RawInstr.dataFits, Bool.and_eq_true, List.contains_iff_mem,
    decide_eq_true_eq] at wf
  obtain ⟨pair, fits⟩ := wf
  obtain ⟨r, mem, rfl, rfl⟩ := exists_row_of_pair mn mode pair
  rw [← build_operandBytes mem] at fits
  obtain ⟨operands, i, reads, rfl⟩ := r.build.exists_reads fits
  have raw := (opcodeTable_describes mem reads).raw
  exact ⟨i, raw, fun j same => raw_injective (same.trans raw.symm)⟩

/-- Settles O7: the data is what the operand bytes write, cut at the operand count; and the two branches of `sext8`. -/
theorem operandBytesAssembleLittleEndian : Obligations.OperandBytesAssembleLittleEndian := by
  constructor
  · intro op b1 b2 rest rest' i h
    rw [data_of_decode h]
    refine ⟨fun n => ?_, fun n => ?_, fun n => ?_⟩ <;> rw [n]
    · rfl
    · simp
    · simp
  · intro d
    exact ⟨fun high => if_pos high, fun low => if_neg (by omega)⟩

/-- Settles O4: each word is read by the row of its lowest byte. -/
theorem sampleWordsDecode : Obligations.SampleWordsDecode := by
  unfold Obligations.SampleWordsDecode
  decide

end Sys2Proof

/-! ### The assembler's branch byte (R57, R120) -/

namespace Sys2Proof.Machine

/-- The signed reading of the byte assembled for a branch is the distance from the next instruction to the target. -/
theorem sext8_of_branchOperand {p target : Word} {d : Byte} (assembled : branchOperand p target = some d) :
    sext8 d = (target.toNat : Int) - (p.toNat + 2) := by
  simp only [branchOperand] at assembled
  split at assembled
  · next fits =>
    obtain ⟨low, high⟩ := fits
    obtain rfl := Option.some.inj assembled
    rw [sext8_eq_toInt, BitVec.toInt_ofInt_eq_self (by decide) low (by omega)]
    omega
  · cases assembled

/-- BEQ whose resolved address lies in AddressSpace, with Z set, continues one past it (R82, R120). -/
theorem exec_beqRel_taken {s : State} {d : Byte} {addr : Word} (ea : (relativeBase s : Int) + sext8 d = addr.toNat)
    (z : s.flags.z = true) : exec (.beqRel d) s = .next { s with pc := addr + 1 } := by
  have address : effectiveAddress (.rel d) s = .ok (addr.toNat : Int) := congrArg Except.ok ea
  have resolved : resolveMem (.rel d) s = .ok (addr, Memory.read s.mem addr.toNat) := by
    simpa using resolveMem_ok address (inSpace_word addr)
  calc exec (.beqRel d) s = branchIfZero addr (s.advance 2) := execMemory_ok resolved
    _ = .next { s with pc := addr + 1 } := by simp [branchIfZero, State.advance, State.setPc, z]

/-- Settles O57: the assembled byte resolves to the address before the target. -/
theorem assembledBranchReachesItsTarget : Obligations.AssembledBranchReachesItsTarget := by
  intro s target d assembled z noWrap notZero
  have distance := sext8_of_branchOperand assembled
  have before : (target - 1).toNat = target.toNat - 1 := by bv_omega
  have ea : (relativeBase s : Int) + sext8 d = (target - 1).toNat := by
    rw [relativeBase_eq, distance, before]
    omega
  rw [exec_beqRel_taken ea z, BitVec.sub_add_cancel]

end Sys2Proof.Machine
end

section
/-! Fetch and operand resolution (spec/40_fetch_and_addressing.md): which bytes a fetch reads and what the step makes of them, and
the value, address or fault of each addressing mode. The memory modes go through the reads of their decode (`ReadsEndAt`): the
last of them is the eager read, whose address is the effective address. -/

namespace Sys2Proof.Machine

/-! ### The bytes of the instruction at PC (R70, R71) -/

/-- An encoding is the opcode byte and the operand bytes (R50). -/
theorem encode_length (i : Instr) : (encode i).length = 1 + i.operandBytes := by
  obtain ⟨r, mem, operands, reads, describes⟩ := exists_row i
  rw [describes.bytes, List.length_cons, operands_length mem reads, Nat.add_comm]

/-- The first byte of an encoding says how long it is (R55). -/
theorem instrLength_encode {i : Instr} {op : Byte} {operands : List Byte} (bytes : encode i = op :: operands) :
    instrLength op = (encode i).length := by
  obtain ⟨r, mem, operands', reads, describes⟩ := exists_row i
  obtain ⟨rfl, -⟩ := List.cons.inj (bytes.symm.trans describes.bytes)
  rw [encode_length, Instr.operandBytes, describes.mode, instrLength, lookupRow_eq_some_iff.mpr ⟨mem, rfl⟩]

theorem fetchAddr_zero (s : State) : fetchAddr s 0 = s.pc.toNat := by
  simp [fetchAddr]

theorem fetchByte_zero (s : State) : fetchByte s 0 = Memory.read s.mem s.pc.toNat := by
  rw [fetchByte, fetchAddr_zero]

/-- The fetch reads an encoding that stands at PC, and no byte after it. -/
theorem fetchBytes_eq_encode {s : State} {i : Instr}
    (stands : ∀ (k : Nat) (b : Byte), (encode i)[k]? = some b → Memory.read s.mem ((s.pc.toNat + k) % 65536) = b) :
    fetchBytes s = encode i := by
  have fetched : ∀ (k : Nat) (b : Byte), (encode i)[k]? = some b → fetchByte s k = b := fun k b at_k => by
    rw [fetchByte, fetchAddr_eq, stands k b at_k]
  obtain ⟨r, -, operands, -, describes⟩ := exists_row i
  have opcode : fetchByte s 0 = r.opcode := fetched 0 _ (by rw [describes.bytes]; rfl)
  have length : instrLength (fetchByte s 0) = (encode i).length := opcode ▸ instrLength_encode describes.bytes
  refine List.ext_getElem ?_ fun k _ inside => ?_
  · simp only [fetchBytes, List.length_map, List.length_range, length]
  · simp only [fetchBytes, List.getElem_map, List.getElem_range]
    exact fetched k _ (List.getElem?_eq_getElem inside)

theorem fetch_of_decode {s : State} {i : Instr} {rest : List Byte} (decoded : decode (fetchBytes s) = .ok (i, rest)) :
    fetch s = some i := by
  rw [fetch, decoded]

/-- Settles O8: the fetch finds the decoded instruction, and the step runs what the fetch finds. -/
theorem stepRunsTheDecodedInstruction : Obligations.StepRunsTheDecodedInstruction := by
  intro s i rest run decoded
  exact step_running_some run (fetch_of_decode decoded)

/-- Settles O9: the fetch reads the encoding, which decodes to its instruction. -/
theorem stepRunsTheBytesAtPc : Obligations.StepRunsTheBytesAtPc := by
  intro s i run stands
  have decoded : decode (encode i ++ []) = .ok (i, []) := decodeReadsBackEncode i []
  rw [List.append_nil, ← fetchBytes_eq_encode stands] at decoded
  exact stepRunsTheDecodedInstruction s i [] run decoded

/-! ### A byte that begins no encoding (R90) -/

/-- A byte of the table begins the encoding of an instruction its row builds. -/
theorem exists_encode_of_lookupRow {op : Byte} {r : Row} (found : lookupRow op = some r) :
    ∃ i, (encode i).head? = some op := by
  obtain ⟨mem, rfl⟩ := lookupRow_eq_some_iff.mp found
  obtain ⟨operands, i, reads, -⟩ := r.build.exists_reads (n := 0) (Nat.pow_pos (by decide))
  exact ⟨i, by rw [(opcodeTable_describes mem reads).bytes, List.head?_cons]⟩

/-- The fetch of such a byte reads it alone and finds no instruction. -/
theorem fetch_of_absent {s : State} (absent : lookupRow (fetchByte s 0) = none) : fetch s = none := by
  have bytes : fetchBytes s = [fetchByte s 0] := by
    rw [fetchBytes, instrLength, absent]
    rfl
  rw [fetch, bytes, decode_none absent]

theorem stepTransactions_running_none {s : State} (run : s.status = .running) (f : fetch s = none) :
    stepTransactions s = [.read (fetchAddr s 0)] := by
  rw [stepTransactions, run, f]

/-- Settles O10: no row has the byte, so the fetch finds no instruction and the step faults at lookup. -/
theorem unsupportedOpcodeStopsAtLookup : Obligations.UnsupportedOpcodeStopsAtLookup := by
  intro s run begins
  have absent : lookupRow (fetchByte s 0) = none := by
    rw [fetchByte_zero, Option.eq_none_iff_forall_ne_some]
    intro r found
    obtain ⟨i, head⟩ := exists_encode_of_lookupRow found
    exact begins i head
  have notFound := fetch_of_absent absent
  constructor
  · rw [step_running_none run notFound, raiseUnsupportedOpcode, fetchByte_zero]
    rfl
  · rw [stepTransactions_running_none run notFound, fetchAddr_zero]

/-! ### Accumulator mode (R56, R74) -/

/-- No row of the table has the mode, and every instruction has the mode of its row. -/
theorem mode_ne_acc (i : Instr) : i.mode ≠ .acc := by
  have rows : ∀ r ∈ opcodeTable, r.mode ≠ .acc := by decide
  obtain ⟨r, mem, operands, -, describes⟩ := exists_row i
  rw [describes.mode]
  exact rows r mem

/-- Settles O33: the mode resolves to A by definition, and no instruction has it. -/
theorem accumulatorModeIsUnused : Obligations.AccumulatorModeIsUnused :=
  ⟨rfl, fun _ _ => rfl, fun _ _ i _ => mode_ne_acc i⟩

/-! ### Immediate mode (R75) -/

theorem no_jump_of_imm {i : Instr} {d : Byte} (form : i.form = .imm d) : i.mnemonic ∉ [.beq, .jmp] := by
  cases i with
  | ldaImm d | ldxImm d | ldyImm d | adcImm d | cmpImm d | cpxImm d | cpyImm d => simp [Instr.mnemonic]
  | _ => cases form

/-- An Immediate instruction has nothing that can fail, and no jump among its effects. -/
theorem exec_imm {i : Instr} {d : Byte} (form : i.form = .imm d) (s : State) :
    ∃ t, exec i s = .next t ∧ t.pc = s.pc + 2 := by
  rcases exec_cases i s with ⟨t, he⟩ | ⟨e, failed, -⟩ | ⟨addr, value, -, resolved, -⟩
  · have pc := (exec_effect he).pc_unchanged (no_jump_of_imm form)
    rw [operandBytes_of_form form] at pc
    exact ⟨t, he, pc⟩
  · rw [form] at failed
    cases failed
  · rw [form] at resolved
    cases resolved

theorem fetched_one (s : State) : fetched s 1 = [.read s.pc.toNat, .read ((s.pc.toNat + 1) % 65536 : Nat)] := by
  simp [fetched, Nat.mod_eq_of_lt s.pc.isLt]

/-- Settles O34: the form resolves to its byte and issues no read of its own, and the instruction goes on two bytes further. -/
theorem immediateGivesTheOperandByte : Obligations.ImmediateGivesTheOperandByte := by
  intro i d s form
  refine ⟨by rw [form]; rfl, ?_, ?_, exec_imm form s⟩
  · rw [transactions_no_mem_listed form nofun]
    exact fetched_one s
  · rw [encode_length, operandBytes_of_form form]
    rfl

/-! ### The memory modes (R76 to R85) -/

section
variable {m : MemForm} {s : State} {before : List Int} {ea : Nat}

/-- The eager read inside AddressSpace gives the address and the byte there (R86, R88). -/
theorem ReadsEndAt.resolve_inside (ends : ReadsEndAt m s before ea) (inside : ea < 65536) :
    resolve (.mem m) s = .ok (.memory (BitVec.ofNat 16 ea) (Memory.read s.mem ea)) := by
  rw [ends.resolve_good ((inSpace_natCast ea).2 inside), BitVec.ofInt_natCast, Int.toNat_natCast]

/-- The eager read outside fails with the address as it was summed (R38). -/
theorem ReadsEndAt.resolve_outside (ends : ReadsEndAt m s before ea) (outside : 65536 ≤ ea) :
    resolve (.mem m) s = .error (.outOfRange ea) :=
  ends.resolve_bad ((inSpace_eq_false_iff _).2 (by omega))

end

theorem exec_ne_outOfRange {i : Instr} {s : State} {o : Operand} (resolved : resolve i.form s = .ok o) (addr : Int)
    (left : State) : exec i s ≠ .fault (.outOfRange addr left) := by
  intro h
  rcases exec_fault h with ⟨_, _, -, failed⟩ | ⟨_, _, f⟩
  · cases resolved.symm.trans failed
  · cases f

theorem exec_outOfRange {i : Instr} {s : State} {addr : Int} (failed : resolve i.form s = .error (.outOfRange addr)) :
    ∃ left, exec i s = .fault (.outOfRange addr left) := by
  rw [exec_eq, decodeThen, failed]
  exact ⟨_, rfl⟩

theorem resolve_abs (w : Word) (s : State) : resolve (.mem (.abs w)) s = .ok (.memory w (Memory.read s.mem w.toNat)) := by
  simpa using (ReadsEndAt.direct (m := .abs w) (s := s) rfl rfl).resolve_inside w.isLt

theorem resolve_zp (d : Byte) (s : State) :
    resolve (.mem (.zp d)) s = .ok (.memory (BitVec.ofNat 16 d.toNat) (Memory.read s.mem d.toNat)) :=
  (ReadsEndAt.direct rfl rfl).resolve_inside (by omega)

/-- Settles O35: the data of both modes lies inside AddressSpace, and an instruction whose operand is resolved raises no
OutOfRange. -/
theorem absoluteAndZeroPageAddressTheirData : Obligations.AbsoluteAndZeroPageAddressTheirData := by
  refine ⟨rfl, rfl, fun s w d => ⟨resolve_abs w s, resolve_zp d s, ?_⟩⟩
  rintro i addr left (form | form)
  · exact exec_ne_outOfRange (form ▸ resolve_abs w s) addr left
  · exact exec_ne_outOfRange (form ▸ resolve_zp d s) addr left

/-- Settles O36: the eager read is at the sum, inside AddressSpace or outside. -/
theorem absoluteXDoesNotWrap : Obligations.AbsoluteXDoesNotWrap := by
  refine ⟨rfl, fun s w => ?_⟩
  have ends : ReadsEndAt (.abx w) s [] (w.toNat + s.x.toNat : Nat) := .direct rfl rfl
  exact ⟨ends.resolve_inside, fun outside =>
    ⟨ends.resolve_outside outside, fun i form => exec_outOfRange (form ▸ ends.resolve_outside outside)⟩⟩

/-- Settles O37, mode by mode: the eager read is at the mode's sum. Zero-page sums and pointers from zero-page sums are too small
to leave AddressSpace. -/
theorem indexedModesAddressTheirSums : Obligations.IndexedModesAddressTheirSums := by
  intro s w d
  have aby : ReadsEndAt (.aby w) s [] (w.toNat + s.y.toNat : Nat) := .direct rfl rfl
  have zpx : ReadsEndAt (.zpx d) s [] (d.toNat + s.x.toNat : Nat) := .direct rfl rfl
  have zpy : ReadsEndAt (.zpy d) s [] (d.toNat + s.y.toNat : Nat) := .direct rfl rfl
  have izx := ReadsEndAt.pointer (m := .izx d) (s := s) (loc := d.toNat + s.x.toNat) (index := 0) rfl rfl (by omega)
  have izy := ReadsEndAt.pointer (m := .izy d) (s := s) (loc := d.toNat) (index := s.y.toNat) rfl rfl (by omega)
  exact ⟨aby.resolve_inside, aby.resolve_outside, zpx.resolve_inside (by omega), zpy.resolve_inside (by omega),
    izx.resolve_inside (wordAt_lt _ _), izy.resolve_inside, izy.resolve_outside⟩

end Sys2Proof.Machine
end

section
/-! Loads, transfers and stores (spec/41_load_transfer_store.md R100 to R107). What a memory-mode instruction does follows from
where the reads of its decode end (`ReadsEndAt`): inside AddressSpace it acts on the byte or the cell there, outside it faults in
decode. -/

namespace Sys2Proof.Machine

/-! ### Where the decode of each mode ends (R76 to R85) -/

theorem ReadsEndAt.abs (w : Word) (s : State) : ReadsEndAt (.abs w) s [] w.toNat := .direct rfl rfl

theorem ReadsEndAt.abx (w : Word) (s : State) : ReadsEndAt (.abx w) s [] (w.toNat + s.x.toNat : Nat) := .direct rfl rfl

theorem ReadsEndAt.aby (w : Word) (s : State) : ReadsEndAt (.aby w) s [] (w.toNat + s.y.toNat : Nat) := .direct rfl rfl

theorem ReadsEndAt.zp (d : Byte) (s : State) : ReadsEndAt (.zp d) s [] d.toNat := .direct rfl rfl

theorem ReadsEndAt.zpx (d : Byte) (s : State) : ReadsEndAt (.zpx d) s [] (d.toNat + s.x.toNat : Nat) := .direct rfl rfl

theorem ReadsEndAt.zpy (d : Byte) (s : State) : ReadsEndAt (.zpy d) s [] (d.toNat + s.y.toNat : Nat) := .direct rfl rfl

theorem ReadsEndAt.izx (d : Byte) (s : State) :
    ReadsEndAt (.izx d) s [(d.toNat + s.x.toNat : Nat), (d.toNat + s.x.toNat + 1 : Nat)]
      (wordAt s.mem (d.toNat + s.x.toNat)) :=
  .pointer (index := 0) rfl rfl (by omega)

theorem ReadsEndAt.izy (d : Byte) (s : State) :
    ReadsEndAt (.izy d) s [(d.toNat : Int), (d.toNat + 1 : Nat)] (wordAt s.mem d.toNat + s.y.toNat : Nat) :=
  .pointer rfl rfl (by omega)

/-! ### What an instruction does where its decode has ended (R70, R72, R147) -/

/-- The PC a fault of decode leaves is a free value between P and P + 1 + n (D9, log 8). -/
theorem raiseInDecode_decodeFault (addr : Int) (n : Nat) (s : State) :
    DecodeFault (raiseInDecode (.outOfRange addr) n s) addr n s := by
  have bound : Config.outOfRangePcOffset s % (n + 2) < n + 2 := Nat.mod_lt _ (by omega)
  exact ⟨_, by omega, rfl⟩

section
variable {m : MemForm} {s : State} {before : List Int} {ea : Nat}

theorem ReadsEndAt.decodeFault {i : Instr} (form : i.form = .mem m) (ends : ReadsEndAt m s before ea) (outside : 65536 ≤ ea) :
    DecodeFault (exec i s) ea m.mode.operandBytes s := by
  rw [exec_eq, decodeThen, form, ends.resolve_outside outside]
  exact raiseInDecode_decodeFault _ _ _

theorem ReadsEndAt.execMemoryValue_next (ends : ReadsEndAt m s before ea) {act : Byte → State → State} (inside : ea < 65536) :
    execMemoryValue m act s = .next (act (Memory.read s.mem ea) (s.advance (1 + m.mode.operandBytes))) :=
  execMemory_ok (ends.good ((inSpace_natCast ea).2 inside))

theorem ReadsEndAt.storesA {i : Instr} (sta : i.mnemonic = .sta) (form : i.form = .mem m) (ends : ReadsEndAt m s before ea)
    (wf : MemCanonical s) (inside : ea < 65536) : StoresA (exec i s) ea (1 + m.mode.operandBytes) s := by
  have cell : (BitVec.ofNat 16 ea).toNat = ea := (BitVec.toNat_ofNat _ _).trans (Nat.mod_eq_of_lt inside)
  refine ⟨Memory.write s.mem ea s.a, ?_, Memory.read_write_same wf _ _, fun _ => Memory.read_write_other _ _,
    Memory.wf_write wf inside _⟩
  rw [exec_sta sta (form ▸ ends.resolve_inside inside), cell, operandBytes_of_form form]
  rfl

end

/-! ### LDA, LDX, LDY (R100 to R102) -/

/-- Settles O38, mode by mode: A is loaded where the decode ends, inside AddressSpace or not at all. -/
theorem ldaLoadsTheAccumulator : Obligations.LdaLoadsTheAccumulator := by
  intro s d w
  have abx := ReadsEndAt.abx w s
  have aby := ReadsEndAt.aby w s
  have izy := ReadsEndAt.izy d s
  exact ⟨rfl, (ReadsEndAt.zp d s).execMemoryValue_next (by omega), (ReadsEndAt.zpx d s).execMemoryValue_next (by omega),
    (ReadsEndAt.abs w s).execMemoryValue_next w.isLt,
    ⟨abx.execMemoryValue_next, abx.decodeFault rfl⟩,
    ⟨aby.execMemoryValue_next, aby.decodeFault rfl⟩,
    (ReadsEndAt.izx d s).execMemoryValue_next (wordAt_lt _ _),
    ⟨izy.execMemoryValue_next, izy.decodeFault rfl⟩⟩

/-- Settles O39, mode by mode, as for LDA; each index register is loaded through the other one. -/
theorem ldxAndLdyLoadTheirRegister : Obligations.LdxAndLdyLoadTheirRegister := by
  intro s d w
  have zp := ReadsEndAt.zp d s
  have abs := ReadsEndAt.abs w s
  have abx := ReadsEndAt.abx w s
  have aby := ReadsEndAt.aby w s
  exact ⟨rfl, zp.execMemoryValue_next (by omega), (ReadsEndAt.zpy d s).execMemoryValue_next (by omega),
    abs.execMemoryValue_next w.isLt,
    ⟨aby.execMemoryValue_next, aby.decodeFault rfl⟩,
    rfl, zp.execMemoryValue_next (by omega), (ReadsEndAt.zpx d s).execMemoryValue_next (by omega),
    abs.execMemoryValue_next w.isLt,
    ⟨abx.execMemoryValue_next, abx.decodeFault rfl⟩⟩

/-! ### TAX, TXA, TAY, TYA (R103 to R106) -/

/-- An Implied instruction has no transaction but its opcode fetch (R73, R44). -/
theorem transactions_imp {i : Instr} (form : i.form = .imp) (s : State) : transactions i s = [.read s.pc.toNat] := by
  rw [transactions_no_mem_listed form nofun]
  simp [fetched, OperandForm.mode, Mode.operandBytes, Nat.mod_eq_of_lt s.pc.isLt]

/-- Settles O40: the copies are the definitions of the four actions, and all four are Implied. -/
theorem transfersCopyARegister : Obligations.TransfersCopyARegister := by
  intro s
  have implied : ∀ i ∈ [Instr.tax, .txa, .tay, .tya], i.form = .imp := by decide
  exact ⟨rfl, rfl, rfl, rfl, fun i mem => transactions_imp (implied i mem) s⟩

/-! ### STA (R107) -/

/-- Settles O41, mode by mode: A is stored in the cell where the decode ends, inside AddressSpace or not at all. -/
theorem staStoresTheAccumulator : Obligations.StaStoresTheAccumulator := by
  intro s d w wf
  have abx := ReadsEndAt.abx w s
  have aby := ReadsEndAt.aby w s
  have izy := ReadsEndAt.izy d s
  exact ⟨(ReadsEndAt.zp d s).storesA rfl rfl wf (by omega), (ReadsEndAt.zpx d s).storesA rfl rfl wf (by omega),
    (ReadsEndAt.abs w s).storesA rfl rfl wf w.isLt,
    ⟨abx.storesA rfl rfl wf, abx.decodeFault rfl⟩,
    ⟨aby.storesA rfl rfl wf, aby.decodeFault rfl⟩,
    (ReadsEndAt.izx d s).storesA rfl rfl wf (wordAt_lt _ _),
    ⟨izy.storesA rfl rfl wf, izy.decodeFault rfl⟩⟩

end Sys2Proof.Machine
end

section
/-! The ALU and the flags (spec/42_alu_flags.md R110 to R115): the compare as unsigned comparison, which also keeps N and Z
exclusive along every step, and the instructions that hand it, or the sum, the byte of their operand. -/

namespace Sys2Proof.Machine

/-! ### The compare (R112) and the sum (R111) -/

theorem compareFlags_n_iff (reg value : Byte) (f : Flags) : (compareFlags reg value f).n = true ↔ reg.toNat < value.toNat := by
  rw [compareFlags_n, decide_eq_true_eq]
  omega

theorem compareFlags_z_iff (reg value : Byte) (f : Flags) : (compareFlags reg value f).z = true ↔ reg.toNat = value.toNat := by
  rw [compareFlags_z, decide_eq_true_eq]
  omega

/-- No byte is both less than another and equal to it. -/
theorem compareFlags_exclusive (reg value : Byte) (f : Flags) :
    ¬((compareFlags reg value f).n = true ∧ (compareFlags reg value f).z = true) := by
  rw [compareFlags_n_iff, compareFlags_z_iff]
  omega

/-- The sign and the zero of the integer difference are the unsigned comparisons of the two bytes. -/
theorem compareFlags_eq_compared (reg value : Byte) (f : Flags) : compareFlags reg value f = compared reg value f := by
  have sign : (compareFlags reg value f).n = decide (reg.toNat < value.toNat) :=
    Bool.eq_iff_iff.2 ((compareFlags_n_iff reg value f).trans decide_eq_true_iff.symm)
  have zero : (compareFlags reg value f).z = decide (reg = value) :=
    Bool.eq_iff_iff.2 ((compareFlags_z_iff reg value f).trans (BitVec.toNat_inj.trans decide_eq_true_iff.symm))
  rw [compared, ← sign, ← zero]
  rfl

/-- A register of 8 bits keeps the sum modulo 256 (R15, D6). -/
theorem addBytes_eq_mod (a value : Byte) : addBytes a value = BitVec.ofNat 8 ((a.toNat + value.toNat) % 256) :=
  BitVec.eq_of_toNat_eq (by simp [addBytes])

/-! ### N and Z along a step (R112, R17) -/

/-- Only a compare writes N and Z, and it never makes both true. -/
theorem Effect.keeps_signZeroExclusive {mn : Mnemonic} {t u : State} (eff : Effect mn t u) (excl : SignZeroExclusive t) :
    SignZeroExclusive u := by
  cases eff with
  | compares reg value who => exact compareFlags_exclusive reg value t.flags
  | _ => exact excl

/-- Settles O22: a step that goes on is idle, or has one effect after an advance of the PC. -/
theorem stepKeepsSignZeroExclusive : Obligations.StepKeepsSignZeroExclusive := by
  intro s t excl h
  rcases step_effect h with rfl | ⟨mn, k, eff⟩
  · exact excl
  · exact eff.keeps_signZeroExclusive excl

/-! ### CLC (R110) -/

/-- Settles O42: CLC is Implied, and its action is the statement. -/
theorem clcClearsCarryOnly : Obligations.ClcClearsCarryOnly := fun _ => rfl

/-! ### ADC and CMP (R111, R113)

Both take the byte of their operand in the same seven memory modes, so where each mode finds it is said once. -/

theorem ReadsEndAt.execMemoryValue_decodeFault {m : MemForm} {s : State} {before : List Int} {ea : Nat}
    (ends : ReadsEndAt m s before ea) {act : Byte → State → State} (outside : 65536 ≤ ea) :
    DecodeFault (execMemoryValue m act s) ea m.mode.operandBytes s := by
  rw [execMemoryValue, execMemory_error (ends.bad ((inSpace_eq_false_iff _).2 (by omega)))]
  exact raiseInDecode_decodeFault _ _ _

/-- The result of an action on the byte at `ea`, the PC past `len` bytes. -/
def actedAt (act : Byte → State → State) (s : State) (ea len : Nat) : Result :=
  .next (act (Memory.read s.mem ea) (s.advance len))

/-- The action gets the byte where the decode ends, inside AddressSpace or not at all. -/
theorem execMemoryValue_accumulator_modes (act : Byte → State → State) (s : State) (d : Byte) (w : Word) :
    execMemoryValue (.zp d) act s = actedAt act s d.toNat 2 ∧
    execMemoryValue (.zpx d) act s = actedAt act s (d.toNat + s.x.toNat) 2 ∧
    execMemoryValue (.abs w) act s = actedAt act s w.toNat 3 ∧
    (let ea := w.toNat + s.x.toNat;
      (ea < 65536 → execMemoryValue (.abx w) act s = actedAt act s ea 3) ∧
      (65536 ≤ ea → DecodeFault (execMemoryValue (.abx w) act s) ea 2 s)) ∧
    (let ea := w.toNat + s.y.toNat;
      (ea < 65536 → execMemoryValue (.aby w) act s = actedAt act s ea 3) ∧
      (65536 ≤ ea → DecodeFault (execMemoryValue (.aby w) act s) ea 2 s)) ∧
    execMemoryValue (.izx d) act s = actedAt act s (wordAt s.mem (d.toNat + s.x.toNat)) 2 ∧
    (let ea := wordAt s.mem d.toNat + s.y.toNat;
      (ea < 65536 → execMemoryValue (.izy d) act s = actedAt act s ea 2) ∧
      (65536 ≤ ea → DecodeFault (execMemoryValue (.izy d) act s) ea 1 s)) := by
  have abx := ReadsEndAt.abx w s
  have aby := ReadsEndAt.aby w s
  have izy := ReadsEndAt.izy d s
  exact ⟨(ReadsEndAt.zp d s).execMemoryValue_next (by omega), (ReadsEndAt.zpx d s).execMemoryValue_next (by omega),
    (ReadsEndAt.abs w s).execMemoryValue_next w.isLt,
    ⟨abx.execMemoryValue_next, abx.execMemoryValue_decodeFault⟩,
    ⟨aby.execMemoryValue_next, aby.execMemoryValue_decodeFault⟩,
    (ReadsEndAt.izx d s).execMemoryValue_next (wordAt_lt _ _),
    ⟨izy.execMemoryValue_next, izy.execMemoryValue_decodeFault⟩⟩

/-- Settles O43: the sum is ADC's action, on the operand byte or on the byte its mode finds. -/
theorem adcAddsWithoutCarry : Obligations.AdcAddsWithoutCarry := by
  intro s d w
  simp only [← addBytes_eq_mod]
  exact ⟨rfl, execMemoryValue_accumulator_modes addToA s d w⟩

/-- Settles O44: the compare with A is CMP's action, on the operand byte or on the byte its mode finds. -/
theorem cmpComparesTheAccumulator : Obligations.CmpComparesTheAccumulator := by
  intro s d w
  simp only [← compareFlags_eq_compared]
  exact ⟨rfl, execMemoryValue_accumulator_modes compareA s d w⟩

/-! ### CPX and CPY (R114, R115) -/

/-- Settles O45: neither Zero-page nor Absolute can leave AddressSpace. -/
theorem cpxAndCpyCompareTheirRegister : Obligations.CpxAndCpyCompareTheirRegister := by
  intro s d w
  have zp := ReadsEndAt.zp d s
  have abs := ReadsEndAt.abs w s
  simp only [← compareFlags_eq_compared]
  exact ⟨rfl, zp.execMemoryValue_next (by omega), abs.execMemoryValue_next w.isLt,
    rfl, zp.execMemoryValue_next (by omega), abs.execMemoryValue_next w.isLt⟩

/-! ### The compare instructions, whatever their operand (R112) -/

/-- The register a compare instruction reads: A for CMP, X for CPX, Y for CPY (R113 to R115). -/
def comparedRegister (mn : Mnemonic) (s : State) : Byte := if mn = .cmp then s.a else if mn = .cpx then s.x else s.y

/-- The operand record carries a value, as that of every Immediate and memory mode does (R88). -/
def Operand.Carries (o : Operand) (value : Byte) : Prop := o = .immediate value ∨ ∃ addr, o = .memory addr value

theorem executor_compare {mn : Mnemonic} (compare : mn = .cmp ∨ mn = .cpx ∨ mn = .cpy) {o : Operand} {value : Byte}
    (carries : o.Carries value) (t : State) :
    executor mn o t = .next (t.setFlags (compareFlags (comparedRegister mn t) value t.flags)) := by
  have acts : ∀ act : Byte → State → State, onValue act o t = .next (act value t) := by
    rcases carries with rfl | ⟨addr, rfl⟩ <;> exact fun _ => rfl
  rcases compare with rfl | rfl | rfl
  · exact acts compareA
  · exact acts compareX
  · exact acts compareY

/-- No compare instruction is Implied. -/
theorem form_of_compare {i : Instr} (compare : i.mnemonic = .cmp ∨ i.mnemonic = .cpx ∨ i.mnemonic = .cpy) :
    (∃ d, i.form = .imm d) ∨ ∃ m, i.form = .mem m := by
  cases i with
  | cmpImm d | cpxImm d | cpyImm d => exact .inl ⟨d, rfl⟩
  | cmpZp _ | cmpZpx _ | cmpAbs _ | cmpAbx _ | cmpAby _ | cmpIzx _ | cmpIzy _ | cpxZp _ | cpxAbs _ | cpyZp _ | cpyAbs _ =>
    exact .inr ⟨_, rfl⟩
  | _ => rcases compare with mn | mn | mn <;> cases mn

theorem resolve_carries {i : Instr} {s : State} {o : Operand}
    (compare : i.mnemonic = .cmp ∨ i.mnemonic = .cpx ∨ i.mnemonic = .cpy) (resolved : resolve i.form s = .ok o) :
    ∃ value, o.Carries value := by
  rcases form_of_compare compare with ⟨d, form⟩ | ⟨m, form⟩ <;> rw [form] at resolved
  · exact ⟨d, .inl (Except.ok.inj resolved).symm⟩
  · obtain ⟨addr, value, rfl⟩ := resolve_mem_ok resolved
    exact ⟨value, .inr ⟨addr, rfl⟩⟩

/-- A compare instruction that goes on has compared its register with the value its operand resolved to. -/
theorem compare_next {i : Instr} {s t : State} (compare : i.mnemonic = .cmp ∨ i.mnemonic = .cpx ∨ i.mnemonic = .cpy)
    (h : exec i s = .next t) :
    ∃ o value, o.Carries value ∧ resolve i.form s = .ok o ∧
      t = (s.advance (1 + i.operandBytes)).setFlags (compareFlags (comparedRegister i.mnemonic s) value s.flags) := by
  obtain ⟨o, resolved, acted⟩ := exec_next h
  obtain ⟨value, carries⟩ := resolve_carries compare resolved
  rw [executor_compare compare carries] at acted
  exact ⟨o, value, carries, resolved, (Host.Outcome.next.inj acted).symm⟩

/-- Settles O46: the function's flags are the unsigned comparisons, and the instructions write what the function answers. -/
theorem compareSetsSignAndZeroOfTheDifference : Obligations.CompareSetsSignAndZeroOfTheDifference := by
  refine ⟨fun reg value f => ⟨compareFlags_n_iff reg value f, compareFlags_z_iff reg value f,
    compareFlags_exclusive reg value f, rfl, rfl, rfl, rfl⟩, fun _ => ⟨rfl, rfl⟩, ?_⟩
  intro i s t compare h
  obtain ⟨o, value, carries, resolved, rfl⟩ := compare_next compare h
  refine ⟨value, ?_, rfl⟩
  rcases carries with rfl | ⟨addr, rfl⟩
  · exact .inl resolved
  · exact .inr ⟨addr, resolved⟩

end Sys2Proof.Machine
end

section
/-! The branch (spec/43_branch.md R120): BEQ reads at its resolved address before it looks at Z, so the fault comes first, and a
branch inside AddressSpace is taken or not by Z alone. -/

namespace Sys2Proof.Machine

/-- A Relative operand is resolved from the address of its own byte (R82, D4). -/
theorem ReadsEndAt.rel (d : Byte) (s : State) :
    ReadsEndAt (.rel d) s [] (((s.pc.toNat + 1) % 65536 : Nat) + d.toInt) := by
  rw [← relativeBase_eq, ← sext8_eq_toInt]
  exact .direct rfl rfl

/-- An instruction whose last decode read lies outside AddressSpace, on either side, faults there. -/
theorem ReadsEndAt.decodeFault_of_not_inSpace {i : Instr} {m : MemForm} {s : State} {before : List Int} {last : Int}
    (form : i.form = .mem m) (ends : ReadsEndAt m s before last) (outside : inSpace last = false) :
    DecodeFault (exec i s) last m.mode.operandBytes s := by
  rw [exec_eq, decodeThen, form, ends.resolve_bad outside]
  exact raiseInDecode_decodeFault _ _ _

/-- BEQ resolved at `addr` in AddressSpace, with Z set, continues at `addr + 1` reduced to a word (R120, D6). -/
theorem exec_beqRel_taken_ofInt {s : State} {d : Byte} {addr : Int} (ea : (relativeBase s : Int) + sext8 d = addr)
    (inside : inSpace addr = true) (z : s.flags.z = true) :
    exec (.beqRel d) s = .next { s with pc := BitVec.ofInt 16 (addr + 1) } := by
  have word : ((BitVec.ofInt 16 addr).toNat : Int) = addr := by
    rw [Word.ofInt_toNat inside, Int.toNat_of_nonneg ((inSpace_iff addr).1 inside).1]
  rw [exec_beqRel_taken (ea.trans word.symm) z, BitVec.ofInt_add]
  rfl

/-- BEQ whose resolved address lies in AddressSpace, with Z clear, continues at the next instruction (R120). -/
theorem exec_beqRel_not_taken {s : State} {d : Byte} {before : List Int} {addr : Int} (ends : ReadsEndAt (.rel d) s before addr)
    (inside : inSpace addr = true) (z : s.flags.z = false) : exec (.beqRel d) s = .next { s with pc := s.pc + 2 } :=
  calc exec (.beqRel d) s = branchIfZero (BitVec.ofInt 16 addr) (s.advance 2) := execMemory_ok (ends.good inside)
    _ = .next { s with pc := s.pc + 2 } := by simp [branchIfZero, State.advance, State.setPc, z]

/-- Settles O47: inside AddressSpace Z chooses between one past the resolved address and the next instruction; outside, the
eager read of decode faults whatever Z is. -/
theorem beqBranchesOnZero : Obligations.BeqBranchesOnZero := by
  intro s d addr
  have ends : ReadsEndAt (.rel d) s [] addr := .rel d s
  have ea : (relativeBase s : Int) + sext8 d = addr := by rw [relativeBase_eq, sext8_eq_toInt]
  exact ⟨fun inside => exec_beqRel_taken_ofInt ea ((inSpace_iff addr).2 inside),
    fun inside => exec_beqRel_not_taken ends ((inSpace_iff addr).2 inside),
    fun outside => ends.decodeFault_of_not_inSpace rfl ((inSpace_eq_false_iff addr).2 outside)⟩

end Sys2Proof.Machine
end

section
/-! The index counts (spec/44_incdec.md R125 to R128): INX, DEX, INY and DEY. -/

namespace Sys2Proof.Machine

/-- Counting up adds 1, so 255 goes to 0 (R15, R116 d). -/
theorem incByte_eq_mod (r : Byte) : incByte r = BitVec.ofNat 8 ((r.toNat + 1) % 256) := addBytes_eq_mod r 1

/-- Counting down adds 255, which is congruent to -1 modulo 256, so 0 goes to 255 (R15, R116 d). -/
theorem decByte_eq_mod (r : Byte) : decByte r = BitVec.ofInt 8 (((r.toNat : Int) - 1) % 256) := by
  have congruent : ((r.toNat : Int) - 1) % 256 = ((r.toNat + 255) % 256 : Nat) := by omega
  rw [congruent, BitVec.ofInt_natCast]
  exact addBytes_eq_mod r 255

/-- Settles O48: the four are Implied, and each action puts the count of its register back into it. -/
theorem indexCountsWrap : Obligations.IndexCountsWrap := by
  intro s
  simp only [← incByte_eq_mod, ← decByte_eq_mod]
  exact ⟨rfl, rfl, rfl, rfl⟩

end Sys2Proof.Machine
end

section
/-! JMP, JSR and BRK (spec/45_jump_call_halt.md R130 to R132): what each answers, and what that makes of a run: it ends normally
at a BRK byte alone, and it never ends in a JMP to its own address. -/

namespace Sys2Proof.Machine

/-! ### BRK (R132, R163) -/

/-- Settles O51: BRK is Implied, and its action is the statement. -/
theorem brkHaltsTheRun : Obligations.BrkHaltsTheRun := fun _ => rfl

theorem eq_brk_of_mnemonic {i : Instr} (brk : i.mnemonic = .brk) : i = .brk := by
  cases i with
  | brk => rfl
  | _ => cases brk

/-- An instruction that goes on leaves the run where it stands, unless it is BRK. -/
theorem exec_next_status {i : Instr} {s t : State} (h : exec i s = .next t) :
    t.status = if i = .brk then .halted else s.status := by
  by_cases brk : i = .brk
  · subst brk
    rw [brkHaltsTheRun] at h
    cases h
    rfl
  · rw [if_neg brk]
    exact (exec_effect h).status_unchanged (mt eq_brk_of_mnemonic brk)

theorem instrLength_pos (op : Byte) : 0 < instrLength op := by
  unfold instrLength
  split <;> omega

/-- The fetch reads the opcode byte first, whatever it is (R71). -/
theorem fetchBytes_eq_cons (s : State) : ∃ operands, fetchBytes s = Memory.read s.mem s.pc.toNat :: operands := by
  obtain ⟨n, length⟩ := Nat.exists_eq_add_of_lt (instrLength_pos (fetchByte s 0))
  rw [fetchBytes, length, List.range_succ_eq_map, List.map_cons, fetchByte_zero]
  exact ⟨_, rfl⟩

theorem decode_of_fetch {s : State} {i : Instr} (found : fetch s = some i) : ∃ rest, decode (fetchBytes s) = .ok (i, rest) := by
  cases decoded : decode (fetchBytes s) with
  | ok r =>
    rw [fetch_of_decode decoded] at found
    exact ⟨r.2, Option.some.inj found ▸ rfl⟩
  | error e =>
    rw [fetch, decoded] at found
    cases found

/-- The fetch finds BRK exactly where a 00 byte stands: the byte decodes to it, and its encoding is that byte (D1, log 9). -/
theorem fetch_eq_some_brk_iff (s : State) : fetch s = some .brk ↔ Memory.read s.mem s.pc.toNat = 0 := by
  obtain ⟨operands, bytes⟩ := fetchBytes_eq_cons s
  constructor
  · intro found
    obtain ⟨rest, decoded⟩ := decode_of_fetch found
    have encoded := encodeRebuildsDecodedBytes _ _ _ decoded
    rw [bytes] at encoded
    exact (List.cons.inj encoded).1
  · intro zero
    rw [zero] at bytes
    exact fetch_of_decode (rest := operands) (bytes ▸ rfl)

/-- Settles O12: the step runs what it has fetched, and only BRK changes where the run stands. -/
theorem onlyBrkHalts : Obligations.OnlyBrkHalts := by
  intro s t run h
  rcases step_next h with ⟨idle, -⟩ | ⟨-, i, found, next⟩
  · exact absurd run idle
  · rw [exec_next_status next, run, ← fetch_eq_some_brk_iff, found]
    by_cases brk : i = .brk <;> simp [brk]

/-! ### JMP (R130, R83) -/

theorem ReadsEndAt.ind {w : Word} (high : w.toNat < 65535) (s : State) :
    ReadsEndAt (.ind w) s [(w.toNat : Int), (w.toNat + 1 : Nat)] (wordAt s.mem w.toNat) :=
  .pointer (index := 0) rfl rfl (by omega)

theorem ReadsEndAt.ind_outside {w : Word} (top : w.toNat = 65535) (s : State) :
    ReadsEndAt (.ind w) s [(w.toNat : Int)] 65536 := by
  have outside := ReadsEndAt.pointer_outside (m := .ind w) (s := s) (index := 0) rfl rfl top
  rwa [top] at outside ⊢

theorem ReadsEndAt.execMemoryAddr_next {m : MemForm} {s : State} {before : List Int} {ea : Nat} (ends : ReadsEndAt m s before ea)
    {act : Word → State → Result} (inside : ea < 65536) :
    execMemoryAddr m act s = act (BitVec.ofNat 16 ea) (s.advance (1 + m.mode.operandBytes)) := by
  rw [execMemoryAddr, execMemory_ok (ends.good ((inSpace_natCast ea).2 inside)), BitVec.ofInt_natCast]

/-- JMP absolute goes to its operand, which lies inside AddressSpace whatever it is. -/
theorem exec_jmpAbs (w : Word) (s : State) : exec (.jmpAbs w) s = .next { s with pc := w } :=
  calc exec (.jmpAbs w) s = jumpTo (BitVec.ofNat 16 w.toNat) (s.advance 3) := (ReadsEndAt.abs w s).execMemoryAddr_next w.isLt
    _ = .next { s with pc := w } := by rw [BitVec.ofNat_toNat, BitVec.setWidth_eq]; rfl

/-- Settles O49: the target is where the decode ends, and the decode through a pointer at 65535 ends at its high byte. -/
theorem jmpGoesToItsAddress : Obligations.JmpGoesToItsAddress := by
  intro s w
  exact ⟨exec_jmpAbs w s, fun high => (ReadsEndAt.ind high s).execMemoryAddr_next (wordAt_lt _ _),
    fun top => (ReadsEndAt.ind_outside top s).decodeFault_of_not_inSpace rfl rfl⟩

/-- A run whose step answers the same state is infinite (R166). -/
theorem runFor_of_step_self {s : State} (self : step s = .next s) (k : Nat) : runFor k s = .next s := by
  induction k with
  | zero => rfl
  | succ k ih => rw [runFor_succ_next self, ih]

/-- Where 4C and the two bytes of `w` stand at PC, the step is the jump to `w` (D1, log 9). -/
theorem step_jmpAbs {s : State} {w : Word} (run : s.status = .running) (opcode : Memory.read s.mem s.pc.toNat = 0x4C)
    (operand : joinBytes (Memory.read s.mem ((s.pc.toNat + 1) % 65536)) (Memory.read s.mem ((s.pc.toNat + 2) % 65536)) = w) :
    step s = .next { s with pc := w } := by
  have noWrap : s.pc.toNat % 65536 = s.pc.toNat := Nat.mod_eq_of_lt s.pc.isLt
  have bytes := low_high_joinBytes (Memory.read s.mem ((s.pc.toNat + 1) % 65536)) (Memory.read s.mem ((s.pc.toNat + 2) % 65536))
  rw [operand] at bytes
  rw [← exec_jmpAbs]
  refine stepRunsTheBytesAtPc s (.jmpAbs w) run fun k b at_k => ?_
  rw [encode, bytes] at at_k
  match k with
  | 0 => rw [Nat.add_zero, noWrap, opcode]; exact Option.some.inj at_k
  | 1 | 2 => exact Option.some.inj at_k
  | k + 3 => cases at_k

/-- Settles O14: the step jumps to the PC it started from, so it answers the same state. -/
theorem jumpToItselfNeverEnds : Obligations.JumpToItselfNeverEnds := by
  intro s k run opcode operand
  have self : step s = .next s := step_jmpAbs run opcode (BitVec.eq_of_toNat_eq ((joinBytes_toNat _ _).trans operand))
  exact runFor_of_step_self self k

/-! ### JSR (R131, R143) -/

/-- Settles O50: the print call compares the operand with PRINT_ADDR, which the advance of the PC leaves alone. -/
theorem jsrCallsThePrintAddressOnly : Obligations.JsrCallsThePrintAddressOnly := by
  intro s w
  exact ⟨(exec_jsrAbs _ s).trans (callPrint_print (s.advance 3)), fun other =>
    (exec_jsrAbs w s).trans (callPrint_other (s := s.advance 3) other)⟩

end Sys2Proof.Machine
end

section
/-! Faults and ended runs (spec/60_exceptions.md R140 to R156): the three faults a step can raise and the state each leaves, which
addressing modes raise OutOfRange and on which side of AddressSpace, and the idle step. -/

namespace Sys2Proof.Machine

/-! ### The faults of a step (R140, R147) -/

/-- A fault of an instruction is the failing read of its decode, or a JSR elsewhere than to PRINT_ADDR. -/
theorem exec_fault_cases {i : Instr} {s : State} {f : Fault} (h : exec i s = .fault f) :
    (∃ addr k, inSpace addr = false ∧ k ≤ 1 + i.operandBytes ∧ f = .outOfRange addr ((s.advance k).setStatus .aborted)) ∨
    (∃ target, target ≠ s.printAddr ∧
      f = .unsupportedInstruction (.jsrTarget target) ((s.advance 3).setStatus .aborted)) := by
  rcases exec_cases i s with ⟨t, he⟩ | ⟨e, failed, -⟩ | ⟨target, value, jsr, -, other, he⟩
  · rw [he] at h
    cases h
  · obtain ⟨m, before, addr, form, ends, outside, -⟩ := resolve_error failed
    obtain ⟨k, bound, he⟩ := ends.decodeFault_of_not_inSpace form outside
    rw [he] at h
    cases h
    rw [operandBytes_of_form form]
    exact .inl ⟨addr, k, outside, bound, rfl⟩
  · rw [he] at h
    cases h
    obtain ⟨w, rfl⟩ := eq_jsrAbs_of_mnemonic jsr
    exact .inr ⟨target, other, rfl⟩

/-- A step that faults does so at lookup, the PC still at the opcode, or in the instruction it has fetched. -/
theorem step_fault_cases {s : State} {f : Fault} (h : step s = .fault f) :
    f = .unsupportedInstruction (.opcode (fetchByte s 0) s.pc) (s.setStatus .aborted) ∨
    (∃ i, fetch s = some i ∧ exec i s = .fault f) := by
  by_cases run : s.status = .running
  · cases found : fetch s with
    | none =>
      rw [step_running_none run found] at h
      exact .inl (Host.Outcome.fault.inj h).symm
    | some i => exact .inr ⟨i, rfl, step_running_some run found ▸ h⟩
  · rw [step_idle run] at h
    cases h

/-- A fault leaves the state as it was but for the PC and the aborted run. -/
theorem step_fault_frame {s : State} {f : Fault} (h : step s = .fault f) :
    f.left = { s with pc := f.left.pc, status := .aborted } := by
  obtain ⟨pc, left⟩ := step_fault_left h
  rw [left]
  rfl

/-- Settles O23: a step faults at lookup, in decode or in a JSR; each names its cause and the PC it leaves. -/
theorem faultsArePrecise : Obligations.FaultsArePrecise := by
  intro s f h
  refine ⟨step_fault_frame h, ?_⟩
  rcases step_fault_cases h with rfl | ⟨i, found, he⟩
  · refine ⟨?_, nofun, nofun⟩
    rintro op at' ⟨⟩
    exact ⟨rfl, rfl⟩
  · rcases exec_fault_cases he with ⟨addr, k, outside, bound, rfl⟩ | ⟨target, other, rfl⟩
    · refine ⟨nofun, nofun, ?_⟩
      rintro addr' ⟨⟩
      exact ⟨(inSpace_eq_false_iff addr).1 outside, i, k, found, bound, rfl⟩
    · refine ⟨nofun, ?_, nofun⟩
      rintro target' ⟨⟩
      exact ⟨other, rfl⟩

/-! ### The modes that raise OutOfRange (R141) -/

section
variable {m : MemForm} {s : State} {before : List Int} {ea : Nat}

/-- A decode that ends inside AddressSpace does not fail. -/
theorem ReadsEndAt.resolve_ne_error (ends : ReadsEndAt m s before ea) (inside : ea < 65536) (e : PortError) :
    resolve (.mem m) s ≠ .error e := by
  rw [ends.resolve_inside inside]
  nofun

/-- A decode that ends at an unsigned address can fail only above AddressSpace, at that address. -/
theorem ReadsEndAt.above_of_failed {addr : Int} (ends : ReadsEndAt m s before ea)
    (failed : resolve (.mem m) s = .error (.outOfRange addr)) : 65536 ≤ addr := by
  obtain ⟨outside, e⟩ := ends.last_outside failed
  cases e
  rw [inSpace_eq_false_iff] at outside
  omega

end

/-- The memory modes whose decode can fail, each with the side of AddressSpace on which it does. -/
theorem mode_of_resolve_outOfRange {m : MemForm} {s : State} {addr : Int}
    (failed : resolve (.mem m) s = .error (.outOfRange addr)) :
    (addr < 0 ∧ m.mode = .rel) ∨
    (65536 ≤ addr ∧ (m.mode = .abx ∨ m.mode = .aby ∨ m.mode = .izy ∨ m.mode = .rel)) ∨
    (addr = 65536 ∧ m.mode = .ind) := by
  cases m with
  | abs w => exact absurd failed ((ReadsEndAt.abs w s).resolve_ne_error w.isLt _)
  | zp d => exact absurd failed ((ReadsEndAt.zp d s).resolve_ne_error (by omega) _)
  | zpx d => exact absurd failed ((ReadsEndAt.zpx d s).resolve_ne_error (by omega) _)
  | zpy d => exact absurd failed ((ReadsEndAt.zpy d s).resolve_ne_error (by omega) _)
  | izx d => exact absurd failed ((ReadsEndAt.izx d s).resolve_ne_error (wordAt_lt _ _) _)
  | abx w => exact .inr (.inl ⟨(ReadsEndAt.abx w s).above_of_failed failed, .inl rfl⟩)
  | aby w => exact .inr (.inl ⟨(ReadsEndAt.aby w s).above_of_failed failed, .inr (.inl rfl)⟩)
  | izy d => exact .inr (.inl ⟨(ReadsEndAt.izy d s).above_of_failed failed, .inr (.inr (.inl rfl))⟩)
  | rel d =>
    obtain ⟨outside, e⟩ := (ReadsEndAt.rel d s).last_outside failed
    cases e
    rcases (inSpace_eq_false_iff _).1 outside with below | above
    · exact .inl ⟨below, rfl⟩
    · exact .inr (.inl ⟨above, .inr (.inr (.inr rfl))⟩)
  | ind w =>
    by_cases high : w.toNat < 65535
    · exact absurd failed ((ReadsEndAt.ind high s).resolve_ne_error (wordAt_lt _ _) _)
    · obtain ⟨-, e⟩ := (ReadsEndAt.ind_outside (by omega) s).last_outside failed
      exact .inr (.inr ⟨PortError.outOfRange.inj e, rfl⟩)

/-- Settles O24: OutOfRange comes from an operand that is not resolved, which only a memory mode has. -/
theorem outOfRangeOnlyFromFiveModes : Obligations.OutOfRangeOnlyFromFiveModes := by
  intro i s left addr h
  rcases exec_fault h with ⟨_, _, f, failed⟩ | ⟨_, _, f⟩ <;> cases f
  obtain ⟨m, -, -, form, -⟩ := resolve_error failed
  rw [form] at failed
  rw [Instr.mode, form]
  exact mode_of_resolve_outOfRange failed

/-! ### Ended runs (R156, R160) -/

/-- Settles O11: the step without a run in progress answers the same state, and so does every number of them. -/
theorem endedRunStaysAsItIs : Obligations.EndedRunStaysAsItIs := fun _ k idle => runFor_of_step_self (step_idle idle) k

end Sys2Proof.Machine
end

section
/-! The host's moves and the edges of a run (spec/70_reset_and_hazards.md R160 to R170): control reaching a cell that reads 0,
what poke and load answer while no run is in progress, where a loaded file stands, and the created machine. -/

namespace Sys2Proof.Machine

/-! ### Unwritten memory (R169) -/

/-- Settles O13: the fetch finds BRK, which halts the run. -/
theorem unwrittenMemoryHalts : Obligations.UnwrittenMemoryHalts := by
  intro s run zero
  rw [step_running_some run ((fetch_eq_some_brk_iff s).2 zero), brkHaltsTheRun]

/-! ### Loading a file (R170; log 18)

A loaded byte is a write of the port at the next address, so the file stands where an induction over its bytes puts it. -/

/-- Inside AddressSpace a byte is stored and the next one goes to the address above. -/
theorem pokeBytes_cons_inside (m : Memory) {addr : Nat} (inside : addr < 65536) (b : Byte) (rest : List Byte) :
    pokeBytes m addr (b :: rest) = pokeBytes (Memory.write m addr b) (addr + 1) rest := by
  rw [pokeBytes, memWrite_byte m ((inSpace_natCast addr).2 inside) b, Int.toNat_natCast]

theorem pokeBytes_cons_outside (m : Memory) {addr : Nat} (outside : 65536 ≤ addr) (b : Byte) (rest : List Byte) :
    pokeBytes m addr (b :: rest) = .error (.outOfRange addr) := by
  rw [pokeBytes, memWrite_bad_addr m ((inSpace_eq_false_iff addr).2 (by omega)) (isByte_byte b)]

/-- `m'` is `m` with `bytes` at `base` and above, every other cell as it was. -/
structure StandsAt (m m' : Memory) (base : Nat) (bytes : List Byte) : Prop where
  loaded : ∀ k b, bytes[k]? = some b → Memory.read m' (base + k) = b
  others : ∀ addr, addr < base ∨ base + bytes.length ≤ addr → Memory.read m' addr = Memory.read m addr

theorem StandsAt.nil (m : Memory) (base : Nat) : StandsAt m m base [] := ⟨nofun, fun _ _ => rfl⟩

/-- The first byte is stored before the others, which stand above it. -/
theorem StandsAt.cons {m m' : Memory} {base : Nat} {b : Byte} {rest : List Byte} (wf : Memory.wf m = true)
    (above : StandsAt (Memory.write m base b) m' (base + 1) rest) : StandsAt m m' base (b :: rest) where
  loaded
    | 0, _, at_k => by
      rw [Nat.add_zero, above.others base (.inl (Nat.lt_succ_self base)), Memory.read_write_same wf]
      exact Option.some.inj at_k
    | k + 1, c, at_k => Nat.succ_add_eq_add_succ base k ▸ above.loaded k c at_k
  others addr outside := by
    rw [List.length_cons] at outside
    rw [above.others addr (by omega), Memory.read_write_other m b (by omega)]

/-- Bytes that end at or below 65535 are all stored. -/
theorem pokeBytes_ok {bytes : List Byte} : ∀ {m : Memory} {base : Nat}, Memory.wf m = true → base + bytes.length ≤ 65536 →
    ∃ m', pokeBytes m base bytes = .ok m' ∧ Memory.wf m' = true ∧ StandsAt m m' base bytes := by
  induction bytes with
  | nil => exact fun {m base} wf _ => ⟨m, rfl, wf, .nil m base⟩
  | cons b rest ih =>
    intro m base wf fits
    rw [List.length_cons] at fits
    have inside : base < 65536 := by omega
    obtain ⟨m', stored, wf', above⟩ := ih (Memory.wf_write wf inside b) (base := base + 1) (by omega)
    exact ⟨m', (pokeBytes_cons_inside m inside b rest).trans stored, wf', above.cons wf⟩

/-- Bytes that run past 65535 fail at the first address outside AddressSpace, whatever has been stored below it. -/
theorem pokeBytes_past_end {bytes : List Byte} : ∀ {m : Memory} {base : Nat}, base ≤ 65536 → 65536 < base + bytes.length →
    pokeBytes m base bytes = .error (.outOfRange 65536) := by
  induction bytes with
  | nil =>
    intro m base start past
    rw [List.length_nil] at past
    omega
  | cons b rest ih =>
    intro m base start past
    rw [List.length_cons] at past
    rcases Nat.lt_or_eq_of_le start with inside | rfl
    · rw [pokeBytes_cons_inside m inside]
      exact ih inside (by omega)
    · exact pokeBytes_cons_outside m (Nat.le_refl _) b rest

theorem loadFile_ok {m m' : Memory} {lo hi : Byte} {bytes : List Byte}
    (stored : pokeBytes m (lo.toNat + 256 * hi.toNat) bytes = .ok m') : loadFile m (lo :: hi :: bytes) = .ok m' := by
  rw [loadFile, joinBytes_toNat, stored, surface]

theorem loadFile_error {m : Memory} {lo hi : Byte} {bytes : List Byte} {e : PortError}
    (failed : pokeBytes m (lo.toNat + 256 * hi.toNat) bytes = .error e) :
    loadFile m (lo :: hi :: bytes) = .error (.port e) := by
  rw [loadFile, joinBytes_toNat, failed, surface]

/-- Settles O59: the file's bytes are stored from its load address on, or fail at 65536. -/
theorem loadedFileStandsContiguously : Obligations.LoadedFileStandsContiguously := by
  intro m lo hi bytes wf base
  constructor
  · intro fits
    obtain ⟨m', stored, wf', stands⟩ := pokeBytes_ok wf fits
    exact ⟨m', loadFile_ok stored, wf', stands.loaded, stands.others⟩
  · intro past
    exact loadFile_error (pokeBytes_past_end (by omega) past)

/-! ### The host's moves while no run is in progress (R170) -/

section
variable {s : State} {addr value : Int} {file : List Byte} {m : Memory}

theorem hostPeek_inside (idle : s.status ≠ .running) (inside : inSpace addr = true) :
    hostPeek s addr = .ok (Memory.read s.mem addr.toNat) := by
  rw [hostPeek_idle idle, memRead_ok inside, surface]

theorem hostPeek_outside (idle : s.status ≠ .running) (outside : inSpace addr = false) :
    hostPeek s addr = .error (.port (.outOfRange addr)) := by
  rw [hostPeek_idle idle, memRead_error outside, surface]

/-- A poke changes AddressSpace as the port's write does, and nothing else. -/
theorem hostPoke_ok (idle : s.status ≠ .running) (stored : memWrite s.mem addr value = .ok m) :
    hostPoke s addr value = .ok { s with mem := m } := by
  rw [hostPoke_idle idle, stored]
  rfl

theorem hostPoke_error {e : PortError} (idle : s.status ≠ .running) (failed : memWrite s.mem addr value = .error e) :
    hostPoke s addr value = .error (.port e) := by
  rw [hostPoke_idle idle, failed]
  rfl

/-- A load changes AddressSpace as the file does, and nothing else. -/
theorem hostLoad_ok (idle : s.status ≠ .running) (loaded : loadFile s.mem file = .ok m) :
    hostLoad s file = .ok { s with mem := m } := by
  rw [hostLoad_idle idle, loaded]
  rfl

theorem hostLoad_error {e : HostError} (idle : s.status ≠ .running) (failed : loadFile s.mem file = .error e) :
    hostLoad s file = .error e := by
  rw [hostLoad_idle idle, failed]
  rfl

/-- The cell a write through the port stores, read directly. -/
theorem read_after_memWrite {m' : Memory} (wf : Memory.wf m = true) (stored : memWrite m addr value = .ok m') :
    Memory.read m' addr.toNat = BitVec.ofInt 8 value ∧
      ∀ other, other ≠ addr.toNat → Memory.read m' other = Memory.read m other := by
  obtain ⟨-, rfl⟩ := memWrite_eq_ok stored
  exact ⟨Memory.read_write_same wf _ _, fun _ => Memory.read_write_other m _⟩

theorem hostAttachConsole_running (run : s.status = .running) : hostAttachConsole s = .error .runInProgress := by
  rw [hostAttachConsole, run]

theorem hostInspect_running (run : s.status = .running) : hostInspect s = .error .runInProgress := by
  rw [hostInspect, run]

theorem hostInspect_ended (ended : s.status = .halted ∨ s.status = .aborted) :
    hostInspect s = .ok ⟨s.a, s.x, s.y, s.sp, s.pc, s.flags⟩ := by
  rcases ended with h | h <;> rw [hostInspect, h]

theorem launchInit_ended (ended : s.status = .halted ∨ s.status = .aborted) (fresh : Init) : launchInit s fresh = fresh := by
  rcases ended with h | h <;> rw [launchInit, h]

theorem launchInit_created (created : s.status = .created) (fresh : Init) :
    launchInit s fresh = ⟨s.a, s.x, s.y, s.sp, s.flags⟩ := by
  rw [launchInit, created]

theorem not_running_of_ended (ended : s.status = .halted ∨ s.status = .aborted) : s.status ≠ .running := by
  rcases ended with h | h <;> rw [h] <;> decide

end

/-- Settles O58: during a run each move is rejected; outside one, peek, poke and load answer as the port and the file do, and
after an end run and inspect answer. -/
theorem hostMovesNeedNoRunInProgress : Obligations.HostMovesNeedNoRunInProgress := by
  refine ⟨fun s addr value file init entryAddress run => ?_, fun s addr value idle => ?_, fun s file idle => ?_,
    fun s init entryAddress ended => ?_⟩
  · exact ⟨whenIdle_running run, whenIdle_running run, whenIdle_running run, whenIdle_running run,
      hostAttachConsole_running run, hostInspect_running run⟩
  · rw [← inSpace_iff, ← isByte_iff, ← inSpace_eq_false_iff, ← isByte_eq_false_iff]
    refine ⟨hostPeek_inside idle, hostPeek_outside idle, fun inside byte => ?_,
      fun inside notByte => hostPoke_error idle (memWrite_bad_value s.mem inside notByte),
      fun outside byte => hostPoke_error idle (memWrite_bad_addr s.mem outside byte),
      fun outside notByte => (memWrite_both_bad s.mem outside notByte).imp (hostPoke_error idle) (hostPoke_error idle)⟩
    have stored := memWrite_ok s.mem inside byte
    exact ⟨_, hostPoke_ok idle stored, fun wf => ⟨memWrite_wf wf stored, read_after_memWrite wf stored⟩⟩
  · exact ⟨fun _ => hostLoad_ok idle, fun _ => hostLoad_error idle⟩
  · refine ⟨?_, hostInspect_ended ended⟩
    rw [hostRun_idle (not_running_of_ended ended), launchInit_ended ended]

/-! ### The created machine (R170, R160) -/

theorem hostCreate_idle (p : Word) (init : Init) (pc : Word) : (hostCreate p init pc).status ≠ .running := by
  rw [hostCreate_status]
  decide

/-- Settles O60: no run is in progress in a created machine, so the host's moves apply, and its memory is empty. -/
theorem createdMachineIsSetUpThenLaunched : Obligations.CreatedMachineIsSetUpThenLaunched := by
  intro p init pc s
  have idle : s.status ≠ .running := hostCreate_idle p init pc
  refine ⟨by simp [s], fun addr low high => ?_, fun k => endedRunStaysAsItIs s k idle, rfl, fun _ _ _ => hostPoke_ok idle,
    fun _ _ => hostLoad_ok idle, fun m fresh entryAddress => ?_⟩
  · exact hostPeek_inside idle ((inSpace_iff addr).2 ⟨low, high⟩)
  · rw [hostRun_idle (s := { s with mem := m }) idle, launchInit_created rfl]
    rfl

end Sys2Proof.Machine
end
